-- ==== Sys2Proof/Word.lean ====
section
/-! DEFINITION. The word type and the other widths the spec names (00_scope.md R5, R6). -/

namespace Sys2Proof

/-- The Word: "a 32-bit signed integer; the universal unit of storage" (R6). `toInt` is the spec's `s(w)`,
`toNat` its `u(w)`, `BitVec.ofInt 32` its `wrap32`. -/
abbrev Word := BitVec 32

/-- An 8-bit field or immediate. -/
abbrev Byte := BitVec 8

/-- A 16-bit operand, entry address or stack offset. -/
abbrev Half := BitVec 16

/-- A closure index, 0 to 255; 0 is the null closure (R8). -/
abbrev ClosureIx := BitVec 8

/-- A value of the program counter, 17 bits (10_state.md R13). -/
abbrev PcWord := BitVec 17

end Sys2Proof
end

