-- ==== Sys2Proof/Config.lean ====
section
/-! DEFINITION. What an implementation fixes (00_scope.md R5) and the values the spec leaves open
(93_implementation_defined.md). A parameter marked OPEN is a field of `Params`, which State carries; a free value is a
constant with no body, so that nothing can be proved of it. -/

namespace Sys2Proof

/-- DESC_LAYOUT: where a function descriptor keeps its closure index (30_encoding.md R64, U6). -/
inductive DescLayout where
  /-- entry [15:0], closure [23:16], reserved [31:24]: the spec's default -/
  | listed
  /-- entry [15:0], reserved [23:16], closure [31:24] -/
  | tagged
  deriving DecidableEq, Repr

/-- ALLOC_POLICY: which free index Allocate returns (43_closure_allocator.md R132, R142, U4). -/
inductive AllocPolicy where
  /-- the first free entry of the swap list, `PERM[CNT]`: the spec's default -/
  | reference
  /-- any free index: the free value `Config.electFree` elects one -/
  | election
  deriving DecidableEq, Repr

/-- HALT: the code of each machine-internal cause of a halt (60_exceptions.md R181; the numbers are decision D8, OPEN as
this table). -/
structure HaltCodes where
  budgetExhausted   : Word
  decodeError       : Word
  memoryFault       : Word
  divideByZero      : Word
  refcountViolation : Word
  allocExhausted    : Word
  loadRejected      : Word
  callDepthExceeded : Word
  deriving DecidableEq, Repr

/-- The OPEN parameters (00_scope.md R5; for HALT, D8 of 92_eei_decisions.md), fixed for one machine: no instruction and no
run request writes them. Their defaults stand in Machine/Parameters.lean. -/
structure Params where
  descLayout   : DescLayout
  /-- CALL_DEPTH_MAX; `none` is "unbounded", the default (10_state.md R24, U14) -/
  callDepthMax : Option Nat
  allocPolicy  : AllocPolicy
  haltCodes    : HaltCodes
  deriving DecidableEq, Repr

/-- One call on the hook port: `PC[15:0]` and the fetched word (45_system.md R172). -/
structure HookCall where
  addr : Half
  word : Word
  deriving DecidableEq, Repr

/-- FREE VALUE (log 2): what word `a` of STK holds before anything writes it ("any value", U8). -/
opaque Config.powerUpStk : Nat → Word

/-- FREE VALUE (log 2): what word `64 * slot + k` of CP holds before anything writes it (U8). -/
opaque Config.powerUpCp : Nat → Word

/-- FREE VALUE (log 7): the hook's answer, a function of the hook's own history and of the address and word of this
call (U13), where State lists no answer the host has already settled. -/
opaque Config.hookAnswer : List HookCall → Half → Word → Word

/-- FREE VALUE (log 10): the election among the free indexes at the n-th election (R142). -/
opaque Config.electFree : Nat → Nat

end Sys2Proof
end

