-- ==== Sys2Proof/Syntax.lean ====
section
/-! DEFINITION. The instructions: one constructor per row of spec/opcode_table.json, with the operands its format uses
(30_encoding.md R65). An unused field is no operand (R68). -/

namespace Sys2Proof

/-- The four windows, in the order of their selector values 0 to 3 (30_encoding.md R62). -/
inductive Window where
  | frame | closure | auxiliary | global
  deriving DecidableEq, Repr

/-- A register reference: a window and a 6-bit offset (R62). -/
structure RegRef where
  win : Window
  off : BitVec 6
  deriving DecidableEq, Repr

/-- The instructions, in the order of their opcodes 0 to 23 (R66); operands in the order x, y, z (R72). -/
inductive Instr where
  | li (x : RegRef) (imm : Half)
  | lu (x : RegRef) (imm : Half)
  | mov (x y : RegRef)
  | ld (x y : RegRef) (disp : Byte)
  | st (x : RegRef) (disp : Byte) (z : RegRef)
  | add (x y z : RegRef)
  | sub (x y z : RegRef)
  | mul (x y z : RegRef)
  | div (x y z : RegRef)
  | mod (x y z : RegRef)
  | inc (x : RegRef) (imm : Half)
  | nand (x y z : RegRef)
  | shl (x y z : RegRef)
  | shr (x y z : RegRef)
  | print (x : RegRef)
  | frame (imm : Half)
  | mkc (x : RegRef) (payload : Half)
  | retain (x : RegRef)
  | release (x : RegRef)
  | aux (slot : Byte)
  | fn (size : Byte) (entry : Half)
  | fnrx (size : Byte) (y : RegRef)
  | ret
  | brk
  deriving DecidableEq, Repr

end Sys2Proof
end

