-- ==== Sys2Proof/WellFormed.lean ====
section
/-! DEFINITION. Well-formedness. Every field of `Instr` has exactly the width of the encoding field it comes from and all
256 register references are valid (30_encoding.md R62, R70), so no term of `Instr` is ill-formed; what can be ill-formed
is a WORD (an unrecognised opcode, R69; a used-as-zero field that is not zero, R68), a PROGRAM (R211) and a HALT table (R180). -/

namespace Sys2Proof

/-- STACK_WORDS (R5). -/
def stackWords : Nat := 65536

/-- The opcodes are 0 to 23 (R66); a word whose low byte is larger is illegal (R69). -/
def wordWellFormed (w : Word) : Bool := decide ((w.extractLsb' 0 8).toNat ≤ 23)

/-- The fields an opcode's format does not use (column `-` of R65) are 0, as a producer should write them (R68). -/
def unusedFieldsZero (w : Word) : Bool :=
  let op := (w.extractLsb' 0 8).toNat
  let x := w.extractLsb' 8 8
  let y := w.extractLsb' 16 8
  let z := w.extractLsb' 24 8
  if op = 2 ∨ op = 21 then decide (z = 0)                                          -- MOV, FNRX
  else if op = 14 ∨ op = 17 ∨ op = 18 ∨ op = 19 then decide (y = 0 ∧ z = 0)        -- PRINT, RETAIN, RELEASE, AUX
  else if op = 15 then decide (x = 0)                                              -- FRAME
  else if op = 22 ∨ op = 23 then decide (x = 0 ∧ y = 0 ∧ z = 0)                    -- RET, BRK
  else true

/-- A word as a producer should write it: a recognised opcode, and 0 in every unused field (R68). -/
def wordCanonical (w : Word) : Bool := wordWellFormed w && unusedFieldsZero w

/-- A program the Loader accepts: 1 to 65,536 words (70_reset_and_hazards.md R211). -/
def programWellFormed (p : List Word) : Bool := decide (1 ≤ p.length ∧ p.length ≤ stackWords)

/-- The codes of a HALT table, in the order of R181. -/
def HaltCodes.toList (t : HaltCodes) : List Word :=
  [t.budgetExhausted, t.decodeError, t.memoryFault, t.divideByZero, t.refcountViolation, t.allocExhausted,
    t.loadRejected, t.callDepthExceeded]

/-- A HALT table the source allows: every code negative, no two alike (60_exceptions.md R180). -/
def haltCodesWellFormed (t : HaltCodes) : Bool :=
  t.toList.all (fun c => decide (c.toInt < 0)) && decide t.toList.Nodup

end Sys2Proof
end

