-- ==== Sys2Proof/Decode.lean ====
section
/-! DEFINITION. Decoding a word and encoding an instruction, from 30_encoding.md R61 to R69. -/

namespace Sys2Proof

/-! ## Fields (R61) -/

def opField (w : Word) : Byte := w.extractLsb' 0 8
def xField (w : Word) : Byte := w.extractLsb' 8 8
def yField (w : Word) : Byte := w.extractLsb' 16 8
def zField (w : Word) : Byte := w.extractLsb' 24 8
def yzField (w : Word) : Half := w.extractLsb' 16 16

/-- Selector values 0 frame, 1 closure, 2 auxiliary, 3 global (R62). -/
def Window.ofSelector (sel : BitVec 2) : Window :=
  match sel.toNat with
  | 0 => .frame
  | 1 => .closure
  | 2 => .auxiliary
  | _ => .global

def Window.selector : Window → BitVec 2
  | .frame => 0
  | .closure => 1
  | .auxiliary => 2
  | .global => 3

/-- A register reference from its 8 bits: offset [5:0], selector [7:6] (R62). -/
def RegRef.ofByte (r : Byte) : RegRef :=
  { win := Window.ofSelector (r.extractLsb' 6 2), off := r.extractLsb' 0 6 }

/-- `r = 64 * sel + off` (R62). -/
def RegRef.toByte (r : RegRef) : Byte := r.win.selector ++ r.off

/-! ## Decode -/

/-- What a word decodes to: one of the 24 instructions, or the decode error of R69, named with its opcode. -/
inductive Decoded where
  | instr (i : Instr)
  | unrecognizedOpcode (op : Byte)
  deriving DecidableEq, Repr

/-- The decoder: total, uses the word alone (R60, R70, R86). Only `iw[7:0]` selects the instruction (R66); a field
the format does not use is ignored (R68). -/
def decode (w : Word) : Decoded :=
  let x := RegRef.ofByte (xField w)
  let y := RegRef.ofByte (yField w)
  let z := RegRef.ofByte (zField w)
  let yz := yzField w
  match (opField w).toNat with
  | 0 => .instr (.li x yz)
  | 1 => .instr (.lu x yz)
  | 2 => .instr (.mov x y)
  | 3 => .instr (.ld x y (zField w))
  | 4 => .instr (.st x (yField w) z)
  | 5 => .instr (.add x y z)
  | 6 => .instr (.sub x y z)
  | 7 => .instr (.mul x y z)
  | 8 => .instr (.div x y z)
  | 9 => .instr (.mod x y z)
  | 10 => .instr (.inc x yz)
  | 11 => .instr (.nand x y z)
  | 12 => .instr (.shl x y z)
  | 13 => .instr (.shr x y z)
  | 14 => .instr (.print x)
  | 15 => .instr (.frame yz)
  | 16 => .instr (.mkc x yz)
  | 17 => .instr (.retain x)
  | 18 => .instr (.release x)
  | 19 => .instr (.aux (xField w))
  | 20 => .instr (.fn (xField w) yz)
  | 21 => .instr (.fnrx (xField w) y)
  | 22 => .instr .ret
  | 23 => .instr .brk
  | _ => .unrecognizedOpcode (opField w)

/-! ## Encode -/

/-- `iw = {z, y, x, op}` (R61). -/
def pack (op x y z : Byte) : Word := z ++ y ++ x ++ op

/-- The same with the 16-bit operand: `iw = {yz, x, op}` (R61). -/
def packWide (op x : Byte) (yz : Half) : Word := yz ++ x ++ op

/-- The encoder, from the assembler table of R72: an unused field is 0. -/
def encode : Instr → Word
  | .li x imm => packWide 0x00 x.toByte imm
  | .lu x imm => packWide 0x01 x.toByte imm
  | .mov x y => pack 0x02 x.toByte y.toByte 0
  | .ld x y disp => pack 0x03 x.toByte y.toByte disp
  | .st x disp z => pack 0x04 x.toByte disp z.toByte
  | .add x y z => pack 0x05 x.toByte y.toByte z.toByte
  | .sub x y z => pack 0x06 x.toByte y.toByte z.toByte
  | .mul x y z => pack 0x07 x.toByte y.toByte z.toByte
  | .div x y z => pack 0x08 x.toByte y.toByte z.toByte
  | .mod x y z => pack 0x09 x.toByte y.toByte z.toByte
  | .inc x imm => packWide 0x0A x.toByte imm
  | .nand x y z => pack 0x0B x.toByte y.toByte z.toByte
  | .shl x y z => pack 0x0C x.toByte y.toByte z.toByte
  | .shr x y z => pack 0x0D x.toByte y.toByte z.toByte
  | .print x => pack 0x0E x.toByte 0 0
  | .frame imm => packWide 0x0F 0 imm
  | .mkc x payload => packWide 0x10 x.toByte payload
  | .retain x => pack 0x11 x.toByte 0 0
  | .release x => pack 0x12 x.toByte 0 0
  | .aux slot => pack 0x13 slot 0 0
  | .fn size entry => packWide 0x14 size entry
  | .fnrx size y => pack 0x15 size y.toByte 0
  | .ret => pack 0x16 0 0 0
  | .brk => pack 0x17 0 0 0

/-! ## The host's entry -/

/-- The instruction word whose bits are `w`, of which the table gives `nbits`: every bit above is 0. The machine has no
byte order (20_memory.md R42), so the word is the number. -/
def tableWord (nbits w : Nat) : Word := BitVec.ofNat 32 (w % 2 ^ nbits)

def decodeTableWord (nbits w : Nat) : Option Instr :=
  match decode (tableWord nbits w) with
  | .instr i => some i
  | .unrecognizedOpcode _ => none

end Sys2Proof
end

