-- ==== Sys2Proof/Machine/Parameters.lean ====
section
/-! DEFINITION. The defaults the spec states for the OPEN parameters (log 9). -/

namespace Sys2Proof

/-- The numbers of R181 (60_exceptions.md; decision D8). -/
def HaltCodes.default : HaltCodes where
  budgetExhausted := -1
  decodeError := -2
  memoryFault := -3
  divideByZero := -4
  refcountViolation := -5
  allocExhausted := -6
  loadRejected := -7
  callDepthExceeded := -8

/-- 00_scope.md R5, and the HALT table. -/
def Params.default : Params where
  descLayout := .listed
  callDepthMax := none
  allocPolicy := .reference
  haltCodes := HaltCodes.default

end Sys2Proof
end

