-- ==== Sys2Proof/Machine/State.lean ====
section
/-! DEFINITION. The machine's state as plain data: everything 10_state.md R10 lists, the run configuration of R27, and
the model's own fields. Also the reasons a step can stop, and the state at power-up. -/

namespace Sys2Proof.Machine

/-- A memory of words: the words written since power-up as (index, word) pairs, indexes strictly rising. The unit is the
word, the spec's smallest addressable unit (20_memory.md R41, R42; log 3). -/
abbrev Memory := List (Nat × Word)

/-- STATUS (R21). -/
inductive Status where
  | idle | running | halted
  deriving DecidableEq, Repr

/-- A record of the call save stack CSTK (R24). -/
structure Frame where
  pc : PcWord
  fw : Word
  cw : ClosureIx
  deriving DecidableEq, Repr

/-- A run request (45_system.md R175). `hook` is `none` when no hook is given, else the answers the host has already
settled for its first calls (log 7). The print sink is the field `printLog` of State (R28). -/
structure RunRequest where
  program : List Word
  budget  : BitVec 32
  hook    : Option (List Word)
  deriving DecidableEq, Repr

/-- A storage location: a word of STK or a word of a closure slot (40_step_and_addressing.md R80). -/
inductive Loc where
  | stk (a : Nat)
  | cp (slot : ClosureIx) (off : BitVec 6)
  deriving DecidableEq, Repr

/-- The causes of a halt (60_exceptions.md R181). -/
inductive Halt where
  | budgetExhausted
  | decodeError
  | memoryFault
  | divideByZero
  | refcountViolation
  | allocExhausted
  | loadRejected
  | callDepthExceeded
  | hookHalt (h : Word)
  deriving DecidableEq, Repr

structure State where
  /-- STK (R25) -/
  stk       : Memory
  /-- CP (R26): word k of slot i is at index `64 * i + k` -/
  cp        : Memory
  /-- PC (R13) -/
  pc        : PcWord
  /-- FW (R15) -/
  fw        : Word
  /-- CW (R16) -/
  cw        : ClosureIx
  /-- AW (R17) -/
  aw        : ClosureIx
  /-- GW (R18) -/
  gw        : Half
  /-- TICK (R19) -/
  tick      : BitVec 32
  /-- LIMIT (R20) -/
  limit     : BitVec 32
  /-- STATUS (R21) -/
  status    : Status
  /-- CODE (R21) -/
  code      : Word
  /-- RC[0..255] (R22) -/
  rc        : Vector Word 256
  /-- PERM[0..254] (R23) -/
  perm      : Vector ClosureIx 255
  /-- POS[1..255] (R23): POS[i] is entry `i - 1` -/
  pos       : Vector Nat 255
  /-- CNT (R23) -/
  cnt       : Nat
  /-- CSTK (R24), newest record first -/
  cstk      : List Frame
  /-- PRINTLOG (R28), oldest word first -/
  printLog  : List Word
  /-- HOOK_PRESENT and the hook (R27, R172): `none` is "no hook"; `some answers` lists the answers already settled -/
  hook      : Option (List Word)
  /-- MODEL'S OWN: the calls made on the hook port, oldest first (log 7) -/
  hookLog   : List HookCall
  /-- MODEL'S OWN: the run requests the host will make, oldest first (log 4, log 8) -/
  requests  : List RunRequest
  /-- the OPEN parameters of R5, and the HALT table of D8 (log 9) -/
  params    : Params
  /-- MODEL'S OWN: elections of a free index so far (log 10) -/
  elections : Nat
  deriving DecidableEq, Repr

/-- The model's faults. A halt of the machine is no fault: it is taken, a next state (log 5). -/
inductive Fault where
  /-- Raised by `step` when STATUS is IDLE or HALTED and the host makes no run request: "The machine has no step when
  STATUS is IDLE or HALTED" (R89). Safe: the machine does nothing there. -/
  | noStep
  /-- Raised by RET when CSTK is empty, "never empty while RUNNING" (R156, R31 item 8), so in no run (log 6). Safe: the
  spec gives no behaviour there. -/
  | callStackUnderflow
  deriving DecidableEq, Repr

/-- The model's refusals. -/
inductive Refusal where
  /-- Raised by the arm of an instruction that has no meaning yet (there is none left). Safe. -/
  | notModelled (mnemonic : String)
  deriving DecidableEq, Repr

/-- What a step, or an instruction, answers. -/
abbrev Out := Host.Outcome State Fault Refusal

/-- The allocator's identity order: `PERM[j] = j + 1` (R23). -/
def identityPerm : Vector ClosureIx 255 :=
  ⟨((List.range 255).map fun j => BitVec.ofNat 8 (j + 1)).toArray, by simp⟩

/-- `POS[i] = i - 1`, so entry k is k (R23). -/
def identityPos : Vector Nat 255 := ⟨(List.range 255).toArray, by simp⟩

/-- Power-up: STATUS = IDLE, before the first run request (R21, R30, R214). The spec leaves every other element
unspecified there; each register holds the value that log 1 names, and memory lists nothing (log 2). -/
def State.reset : State where
  stk := []
  cp := []
  pc := 0
  fw := 0
  cw := 0
  aw := 0
  gw := 0
  tick := 0
  limit := 0
  status := .idle
  code := 0
  rc := Vector.replicate 256 0
  perm := identityPerm
  pos := identityPos
  cnt := 0
  cstk := []
  printLog := []
  hook := none
  hookLog := []
  requests := []
  params := Params.default
  elections := 0

end Sys2Proof.Machine
end

