-- ==== Sys2Proof/Machine/Ops.lean ====
section
/-! DEFINITION. The named operations over memory, registers, windows and the call save stack, and taking a halt. -/

namespace Sys2Proof.Machine

/-! ## A memory of words -/

/-- The word a memory lists at an index; `none` where nothing has been written. -/
def Memory.lookup : Memory → Nat → Option Word
  | [], _ => none
  | (b, v) :: m, a => if a = b then some v else Memory.lookup m a

/-- Write one word, keeping the indexes rising. -/
def Memory.write : Memory → Nat → Word → Memory
  | [], a, v => [(a, v)]
  | (b, u) :: m, a, v =>
    if a < b then (a, v) :: (b, u) :: m
    else if a = b then (a, v) :: m
    else (b, u) :: Memory.write m a v

/-- Write consecutive words from index `a` up (the Loader's copy, R210 line 2). -/
def Memory.writeBlock : Memory → Nat → List Word → Memory
  | m, _, [] => m
  | m, a, v :: vs => Memory.writeBlock (Memory.write m a v) (a + 1) vs

/-- The canonical form: indexes strictly rising and below the size of the space (log 3). -/
abbrev Memory.wf (size : Nat) (m : Memory) : Prop :=
  (m.map Prod.fst).Pairwise (· < ·) ∧ ∀ c ∈ m, c.1 < size

/-! ## The two spaces (20_memory.md R40) -/

/-- What word `a` of STK reads as: the word last written, else a free value (R51, U8). -/
def State.readStk (s : State) (a : Nat) : Word :=
  (Memory.lookup s.stk a).getD (Config.powerUpStk a)

def State.writeStk (s : State) (a : Nat) (v : Word) : State :=
  { s with stk := Memory.write s.stk a v }

/-- Word k of slot i is word `64 * i + k` of the pool (R26). -/
def cpIndex (slot : ClosureIx) (off : BitVec 6) : Nat := 64 * slot.toNat + off.toNat

/-- What word `off` of slot `slot` reads as, live or not (R50). -/
def State.readCp (s : State) (slot : ClosureIx) (off : BitVec 6) : Word :=
  (Memory.lookup s.cp (cpIndex slot off)).getD (Config.powerUpCp (cpIndex slot off))

def State.writeCp (s : State) (slot : ClosureIx) (off : BitVec 6) (v : Word) : State :=
  { s with cp := Memory.write s.cp (cpIndex slot off) v }

/-- The bounds check of every STK access (R45, R47): `none` is a MemoryFault. -/
def stackIndex (a : Int) : Option Nat :=
  if 0 ≤ a ∧ a ≤ 65535 then some a.toNat else none

/-! ## The Addressing Engine (40_step_and_addressing.md R80, R81) -/

/-- `Loc(r)`; `none` is a MemoryFault. -/
def State.loc (s : State) (r : RegRef) : Option Loc :=
  match r.win with
  | .frame => (stackIndex (s.fw.toInt + (r.off.toNat : Int))).map .stk
  | .closure => some (.cp s.cw r.off)
  | .auxiliary => some (.cp s.aw r.off)
  | .global => (stackIndex ((s.gw.toNat : Int) + (r.off.toNat : Int))).map .stk

/-- The Word stored at a location. -/
def State.readLoc (s : State) : Loc → Word
  | .stk a => s.readStk a
  | .cp slot off => s.readCp slot off

/-- Store a Word at a location. -/
def State.writeLoc (s : State) (l : Loc) (v : Word) : State :=
  match l with
  | .stk a => s.writeStk a v
  | .cp slot off => s.writeCp slot off v

/-- The introspection port (45_system.md R174): one resolution without side effects; `none` is its fault indication. -/
def State.introspect (s : State) (r : RegRef) : Option Word := (s.loc r).map s.readLoc

/-! ## Taking a halt (60_exceptions.md R181, R186). There is no return from a halt (R188). -/

/-- `code(E)` (R181): the HALT table's code of a machine-internal cause, the hook's own answer for HookHalt. -/
def Halt.code (table : HaltCodes) : Halt → Word
  | .budgetExhausted => table.budgetExhausted
  | .decodeError => table.decodeError
  | .memoryFault => table.memoryFault
  | .divideByZero => table.divideByZero
  | .refcountViolation => table.refcountViolation
  | .allocExhausted => table.allocExhausted
  | .loadRejected => table.loadRejected
  | .callDepthExceeded => table.callDepthExceeded
  | .hookHalt h => h

/-- `code(E)` under this machine's HALT table. -/
def State.haltCode (s : State) (e : Halt) : Word := e.code s.params.haltCodes

/-- `raise E`: STATUS <- HALTED, CODE <- the code of E, nothing else (R186). -/
def State.raise (s : State) (e : Halt) : State :=
  { s with status := .halted, code := s.haltCode e }

/-! ## Program counter, calls and returns -/

/-- "advance the program counter by one word" (R88). -/
def State.advance (s : State) : State := { s with pc := s.pc + 1 }

/-- `|CSTK| >= CALL_DEPTH_MAX` (R153); never, when unbounded. -/
def State.callDepthReached (s : State) : Bool :=
  match s.params.callDepthMax with
  | none => false
  | some d => decide (d ≤ s.cstk.length)

/-- The record a call pushes: the address of the calling instruction, FW and CW (R152, R153). -/
def State.callRecord (s : State) : Frame := { pc := s.pc, fw := s.fw, cw := s.cw }

/-- `Call(entry, clo, fs)` (R153): push, move the frame, enter. -/
def State.call (s : State) (entry : Half) (clo : ClosureIx) (size : Byte) : State :=
  if s.callDepthReached then s.raise .callDepthExceeded
  else { s with
    cstk := s.callRecord :: s.cstk
    fw := s.fw + size.setWidth 32
    cw := clo
    pc := entry.setWidth 17 }

/-- RET with `f` the popped record and `rest` what remains (R156): the Loader's record ends the run with code 0. -/
def State.popRecord (s : State) (f : Frame) (rest : List Frame) : State :=
  match rest with
  | [] => { s with cstk := [], fw := f.fw, cw := f.cw, pc := f.pc, status := .halted, code := 0 }
  | _ :: _ => { s with cstk := rest, fw := f.fw, cw := f.cw, pc := f.pc + 1 }

end Sys2Proof.Machine
end

