-- ==== Sys2Proof/Machine/Loader.lean ====
section
/-! DEFINITION. The reset sequence: the Program Loader (70_reset_and_hazards.md R210 to R213). -/

namespace Sys2Proof.Machine

/-- The entry address: bits [31:16] of the last program word (30_encoding.md R71). -/
def trailerEntry (p : List Word) : Half := yzField (p.getLastD 0)

/-- Lines 2 to 8 of R210 for an accepted program. CODE is not written (log 13). -/
def State.loadImage (s : State) (q : RunRequest) : State :=
  { s with
    stk := Memory.writeBlock s.stk (stackWords - q.program.length) q.program
    rc := Vector.replicate 256 0
    perm := identityPerm
    pos := identityPos
    cnt := 0
    tick := 0
    limit := q.budget
    hook := q.hook
    printLog := []
    gw := BitVec.ofNat 16 (stackWords - q.program.length)
    pc := 0
    fw := 0
    cw := 0
    aw := 0
    cstk := []
    status := .running }

/-- `Run` up to line 9 (R210): reject (R211), or load and make the first call. -/
def State.runRequest (s : State) (q : RunRequest) : State :=
  if programWellFormed q.program then (s.loadImage q).call (trailerEntry q.program) 0 0
  else s.raise .loadRejected

end Sys2Proof.Machine
end

