-- ==== Sys2Proof/Machine/Cycle.lean ====
section
/-! DEFINITION. The step cycle before dispatch: budget, fetch and hook (40_step_and_addressing.md R83 lines 1 to 5), the
move of a machine that is not RUNNING, and where the host places a word for the next fetch. -/

namespace Sys2Proof.Machine

/-- TICK <- TICK + 1 (R83 line 2). -/
def State.tickUp (s : State) : State := { s with tick := s.tick + 1 }

/-- `TICK >= LIMIT` (R83 line 1), unsigned. -/
def State.budgetSpent (s : State) : Bool := decide (s.limit.toNat ≤ s.tick.toNat)

/-- The word at PC (R83 line 4). -/
def State.fetchWord (s : State) : Word := s.readStk s.pc.toNat

/-- The hook's answer to this step's call; 0 when there is no hook (R85). An answer the host has settled, else a free
value (log 7). -/
def State.hookAnswer (s : State) : Word :=
  match s.hook with
  | none => 0
  | some (h :: _) => h
  | some [] => Config.hookAnswer s.hookLog (s.pc.setWidth 16) s.fetchWord

/-- The hook port after this step's call (R172). -/
def State.afterHook (s : State) : State :=
  match s.hook with
  | none => s
  | some answers => { s with
      hook := some answers.tail
      hookLog := s.hookLog ++ [{ addr := s.pc.setWidth 16, word := s.fetchWord }] }

/-- How lines 1 to 5 of R83 end: the run is over, or a word is to be executed. -/
inductive Begun where
  | ended (t : State)
  | fetched (w : Word) (t : State)
  deriving DecidableEq, Repr

/-- Lines 1 to 5 of R83. -/
def State.beginStep (s : State) : Begun :=
  if s.budgetSpent then .ended (s.raise .budgetExhausted)
  else if 65535 < s.pc.toNat then .ended (s.tickUp.raise .memoryFault)
  else if s.tickUp.hookAnswer = 0 then .fetched s.tickUp.fetchWord s.tickUp.afterHook
  else .ended (s.tickUp.afterHook.raise (.hookHalt s.tickUp.hookAnswer))

/-- A machine that is not RUNNING does nothing until a run request (R214); the host's next request is performed. -/
def State.awaitRequest (s : State) : Out :=
  match s.requests with
  | [] => .fault .noStep
  | q :: rest => .next ({ s with requests := rest }.runRequest q)

/-- The trailer of the two-word program that `placeWord` has the Loader load: entry 65534, op field RET (R72). -/
def placeTrailer : Word := 0xFFFE0016

/-- The state whose very next step fetches and runs `w` (log 4). A machine that is not RUNNING has the Loader load the
program `w, trailer` with the largest budget and no hook (and a call depth that admits its first call); a RUNNING one keeps its state but for what the fetch needs: a PC
inside STK, a budget unit left, a hook that answers 0. -/
def State.placeWord (s : State) (w : Word) : State :=
  if s.status = .running then
    let pc := if s.pc.toNat ≤ 65535 then s.pc else 0
    { s with
      pc := pc
      stk := Memory.write s.stk pc.toNat w
      tick := if s.budgetSpent then 0 else s.tick
      limit := if s.limit = 0 then 1 else s.limit
      hook := s.hook.map fun answers => 0 :: answers }
  else
    { s with params := { s.params with callDepthMax := s.params.callDepthMax.map (max 1) } }.runRequest
      { program := [w, placeTrailer], budget := 0xFFFFFFFF, hook := none }

end Sys2Proof.Machine
end

