-- ==== Sys2Proof/Machine/Flags.lean ====
section
/-! DEFINITION. The result computations of 42_arithmetic.md. The machine has no flags, condition codes or predicates
(10_state.md R14): the one thing an operation reports besides its result is DivideByZero. -/

namespace Sys2Proof.Machine

/-- R112. -/
def aluAdd (p q : Word) : Except Halt Word := .ok (p + q)

/-- R113: first source minus second. -/
def aluSub (p q : Word) : Except Halt Word := .ok (p - q)

/-- R114: the low 32 bits of the product. -/
def aluMul (p q : Word) : Except Halt Word := .ok (p * q)

/-- R115: quotient rounded toward zero; DIV_OVERFLOW = wrap (log 11). -/
def aluDiv (p q : Word) : Except Halt Word :=
  if q = 0 then .error .divideByZero
  else if p.toInt = -2147483648 ∧ q.toInt = -1 then .ok 0x80000000
  else .ok (BitVec.ofInt 32 (p.toInt.tdiv q.toInt))

/-- R116: remainder with the sign of the dividend. -/
def aluMod (p q : Word) : Except Halt Word :=
  if q = 0 then .error .divideByZero
  else if p.toInt = -2147483648 ∧ q.toInt = -1 then .ok 0
  else .ok (BitVec.ofInt 32 (p.toInt - q.toInt * p.toInt.tdiv q.toInt))

/-- R118. -/
def aluNand (p q : Word) : Except Halt Word := .ok (~~~(p &&& q))

/-- The shift count: the low 5 bits of the second source (R119, R120; log 11). -/
def shiftCount (q : Word) : Nat := (q.extractLsb' 0 5).toNat

/-- R119. -/
def aluShl (p q : Word) : Except Halt Word := .ok (p <<< shiftCount q)

/-- R120: arithmetic shift. -/
def aluShr (p q : Word) : Except Halt Word := .ok (p.sshiftRight (shiftCount q))

/-- R117. -/
def aluInc (v : Word) (imm : Half) : Word := v + imm.setWidth 32

end Sys2Proof.Machine
end

