-- ==== Sys2Proof/Machine/Operands.lean ====
section
/-! DEFINITION. The operand forms: resolve every register operand in the order x, y, z, then read, compute and check,
then write (40_step_and_addressing.md R87); and the immediates (30_encoding.md R67). -/

namespace Sys2Proof.Machine

/-! ## Immediates (R67) -/

/-- `zext_32(yz)`. -/
def zext16 (imm : Half) : Word := imm.setWidth 32

/-- `{yz, 16 zeros}`. -/
def upperHalf (imm : Half) : Word := imm ++ (0 : Half)

/-- `sext_32(yz)`. -/
def sext16 (imm : Half) : Word := imm.signExtend 32

/-! ## Descriptors (30_encoding.md R64) -/

def descEntry (d : Word) : Half := d.extractLsb' 0 16

def descClosure (layout : DescLayout) (d : Word) : ClosureIx :=
  match layout with
  | .listed => d.extractLsb' 16 8
  | .tagged => d.extractLsb' 24 8

/-! ## Phase 1: resolve -/

/-- Resolve one register operand, or take the MemoryFault (R80). -/
def State.withLoc (s : State) (r : RegRef) (k : Loc → State) : State :=
  match s.loc r with
  | none => s.raise .memoryFault
  | some l => k l

/-- Check a computed STK index, or take the MemoryFault (R47). -/
def State.withIndex (s : State) (a : Int) (k : Nat → State) : State :=
  match stackIndex a with
  | none => s.raise .memoryFault
  | some n => k n

/-- The index of LD and ST: signed base plus unsigned displacement, a mathematical integer (R103, R104). -/
def stackDisp (base : Word) (disp : Byte) : Int := base.toInt + (disp.toNat : Int)

/-! ## The forms -/

/-- Write one register from its old value, and advance (LI, LU, INC). -/
def State.updateReg (s : State) (x : RegRef) (f : Word → Word) : State :=
  s.withLoc x fun lx => (s.writeLoc lx (f (s.readLoc lx))).advance

/-- Copy a register (MOV). -/
def State.copyReg (s : State) (x y : RegRef) : State :=
  s.withLoc x fun lx => s.withLoc y fun ly => (s.writeLoc lx (s.readLoc ly)).advance

/-- The three-register form RRR (R111). -/
def State.binop (s : State) (op : Word → Word → Except Halt Word) (x y z : RegRef) : State :=
  s.withLoc x fun lx => s.withLoc y fun ly => s.withLoc z fun lz =>
    match op (s.readLoc ly) (s.readLoc lz) with
    | .error e => s.raise e
    | .ok v => (s.writeLoc lx v).advance

/-- Load through a base register (RRI, R103). -/
def State.loadStack (s : State) (x y : RegRef) (disp : Byte) : State :=
  s.withLoc x fun lx => s.withLoc y fun ly =>
    s.withIndex (stackDisp (s.readLoc ly) disp) fun a => (s.writeLoc lx (s.readStk a)).advance

/-- Store through a base register (RIR, R104). -/
def State.storeStack (s : State) (x : RegRef) (disp : Byte) (z : RegRef) : State :=
  s.withLoc x fun lx => s.withLoc z fun lz =>
    s.withIndex (stackDisp (s.readLoc lx) disp) fun a => (s.writeStk a (s.readLoc lz)).advance

/-- Read one register and act on its value, an action that may raise (R: RETAIN, RELEASE, PRINT). -/
def State.actOnReg (s : State) (x : RegRef) (act : Word → Except Halt State) : State :=
  s.withLoc x fun lx =>
    match act (s.readLoc lx) with
    | .error e => s.raise e
    | .ok t => t.advance

end Sys2Proof.Machine
end

