-- ==== Sys2Proof/Machine/Arithmetic.lean ====
section
/-! DEFINITION. ADD, SUB, MUL, DIV, MOD, INC, NAND, SHL, SHR (42_arithmetic.md R110 to R120). -/

namespace Sys2Proof.Machine

/-- R112. -/
def execAdd (x y z : RegRef) (s : State) : Out := .next (s.binop aluAdd x y z)

/-- R113. -/
def execSub (x y z : RegRef) (s : State) : Out := .next (s.binop aluSub x y z)

/-- R114. -/
def execMul (x y z : RegRef) (s : State) : Out := .next (s.binop aluMul x y z)

/-- R115. -/
def execDiv (x y z : RegRef) (s : State) : Out := .next (s.binop aluDiv x y z)

/-- R116. -/
def execMod (x y z : RegRef) (s : State) : Out := .next (s.binop aluMod x y z)

/-- R117. -/
def execInc (x : RegRef) (imm : Half) (s : State) : Out :=
  .next (s.updateReg x fun v => aluInc v imm)

/-- R118. -/
def execNand (x y z : RegRef) (s : State) : Out := .next (s.binop aluNand x y z)

/-- R119. -/
def execShl (x y z : RegRef) (s : State) : Out := .next (s.binop aluShl x y z)

/-- R120. -/
def execShr (x y z : RegRef) (s : State) : Out := .next (s.binop aluShr x y z)

end Sys2Proof.Machine
end

