-- ==== Sys2Proof/Machine/CallReturn.lean ====
section
/-! DEFINITION. FRAME, FN, FNRX, RET (44_call_return.md R150 to R156). -/

namespace Sys2Proof.Machine

/-- FW <- v. -/
def State.setFw (s : State) (v : Word) : State := { s with fw := v }

/-- R150: `FW <- wrap32(s(FW) + s(sext_32(yz)))`, no range check. -/
def execFrame (imm : Half) (s : State) : Out := .next (s.setFw (s.fw + sext16 imm)).advance

/-- R154: `Call(u(yz), 0, u(x))`. -/
def execFn (size : Byte) (entry : Half) (s : State) : Out := .next (s.call entry 0 size)

/-- R155: the descriptor is read with the caller's windows, then the call. -/
def execFnrx (size : Byte) (y : RegRef) (s : State) : Out :=
  .next (s.withLoc y fun ly =>
    s.call (descEntry (s.readLoc ly)) (descClosure s.params.descLayout (s.readLoc ly)) size)

/-- R156. CSTK is "never empty while RUNNING"; on an empty one the model stops (log 6). -/
def execRet (s : State) : Out :=
  match s.cstk with
  | [] => .fault .callStackUnderflow
  | f :: rest => .next (s.popRecord f rest)

end Sys2Proof.Machine
end

