-- ==== Sys2Proof/Machine/Allocator.lean ====
section
/-! DEFINITION. The closure allocator: Allocate, Retain and Release over RC, PERM, POS and CNT
(43_closure_allocator.md R130 to R134, R142). None of them touches CP. -/

namespace Sys2Proof.Machine

/-- RC[i]. -/
def State.rcOf (s : State) (i : ClosureIx) : Word := s.rc[i.toNat]

/-- RC[i] <- n. -/
def State.setRc (s : State) (i : ClosureIx) (n : Word) : State :=
  { s with rc := s.rc.set i.toNat n }

/-- PERM[j]; past the end, where no run reads (log 15), 0. -/
def State.permAt (s : State) (j : Nat) : ClosureIx := s.perm.toList.getD j 0

/-- POS[i], for i from 1 to 255. -/
def State.posOf (s : State) (i : ClosureIx) : Nat := s.pos.toList.getD (i.toNat - 1) 0

/-- `PERM[j] <- i; POS[i] <- j`. -/
def State.place (s : State) (j : Nat) (i : ClosureIx) : State :=
  { s with
    perm := s.perm.setIfInBounds j i
    pos := s.pos.setIfInBounds (i.toNat - 1) j }

def State.setCnt (s : State) (n : Nat) : State := { s with cnt := n }

/-- Under ALLOC_POLICY = election, bring an elected free index to `PERM[CNT]`, where Allocate takes it: any of the
255 - CNT free entries can be elected (R142, log 10). Under the reference policy, nothing (R132). -/
def State.elect (s : State) : State :=
  match s.params.allocPolicy with
  | .reference => s
  | .election =>
    let j := s.cnt + Config.electFree s.elections % (255 - s.cnt)
    let first := s.permAt s.cnt
    let i := s.permAt j
    { (s.place j first).place s.cnt i with elections := s.elections + 1 }

/-- `Allocate()` (R132): the index and the state after, or AllocExhausted. -/
def State.allocate (s : State) : Except Halt (ClosureIx × State) :=
  if 255 ≤ s.cnt then .error .allocExhausted
  else
    let t := s.elect
    let i := t.permAt t.cnt
    .ok (i, (t.setCnt (t.cnt + 1)).setRc i 1)

/-- `Retain(i)` (R133). -/
def State.retain (s : State) (i : ClosureIx) : Except Halt State :=
  if i = 0 then .ok s
  else if s.rcOf i = 0 then .error .refcountViolation
  else if s.rcOf i = 0xFFFFFFFF then .error .refcountViolation
  else .ok (s.setRc i (s.rcOf i + 1))

/-- Return index `i` to the free set: it becomes the first free entry of the swap list (R134). -/
def State.freeIndex (s : State) (i : ClosureIx) : State :=
  let j := s.posOf i
  let t := s.setCnt (s.cnt - 1)
  let k := t.permAt t.cnt
  (t.place j k).place t.cnt i

/-- `Release(i)` (R134). -/
def State.release (s : State) (i : ClosureIx) : Except Halt State :=
  if i = 0 then .ok s
  else if s.rcOf i = 0 then .error .refcountViolation
  else
    let t := s.setRc i (s.rcOf i - 1)
    if t.rcOf i = 0 then .ok (t.freeIndex i) else .ok t

/-! ## Closure values (30_encoding.md R63) -/

/-- `tag(i, p) = {i[7:0], p[23:0]}` with `p = zext_24(yz)`. -/
def tagValue (i : ClosureIx) (payload : Half) : Word := i ++ (payload.setWidth 24)

/-- The index of a closure value: its top 8 bits. -/
def closureIndex (w : Word) : ClosureIx := w.extractLsb' 24 8

end Sys2Proof.Machine
end

