-- ==== Sys2Proof/Machine/Closure.lean ====
section
/-! DEFINITION. MKC, RETAIN, RELEASE, AUX (43_closure_allocator.md R136 to R139). -/

namespace Sys2Proof.Machine

/-- AW <- i. -/
def State.setAw (s : State) (i : ClosureIx) : State := { s with aw := i }

/-- MKC (R136). The destination is checked first: only a frame or global one can be out of range, and those do not
depend on AW. The value is written at the destination resolved with the NEW AW. -/
def State.makeClosure (s : State) (x : RegRef) (payload : Half) : State :=
  s.withLoc x fun _ =>
    match s.allocate with
    | .error e => s.raise e
    | .ok (i, t) =>
      match (t.setAw i).loc x with
      | none => s.raise .memoryFault
      | some l => ((t.setAw i).writeLoc l (tagValue i payload)).advance

/-- R136. -/
def execMkc (x : RegRef) (payload : Half) (s : State) : Out := .next (s.makeClosure x payload)

/-- R137: `Retain` of the top byte of x[x]. -/
def execRetain (x : RegRef) (s : State) : Out :=
  .next (s.actOnReg x fun v => s.retain (closureIndex v))

/-- R138: `Release` of the top byte of x[x]. -/
def execRelease (x : RegRef) (s : State) : Out :=
  .next (s.actOnReg x fun v => s.release (closureIndex v))

/-- R139: `AW <- u(x)`, no check. -/
def execAux (slot : Byte) (s : State) : Out := .next (s.setAw slot).advance

end Sys2Proof.Machine
end

