-- ==== Sys2Proof/Machine/DataMovement.lean ====
section
/-! DEFINITION. LI, LU, MOV, LD, ST (41_data_movement.md R100 to R104). -/

namespace Sys2Proof.Machine

/-- R100: `x[x] <- zext_32(yz)`. -/
def execLi (x : RegRef) (imm : Half) (s : State) : Out :=
  .next (s.updateReg x fun _ => zext16 imm)

/-- R101: `x[x] <- x[x] OR {yz, 0x0000}`. -/
def execLu (x : RegRef) (imm : Half) (s : State) : Out :=
  .next (s.updateReg x fun v => v ||| upperHalf imm)

/-- R102: `x[x] <- x[y]`. -/
def execMov (x y : RegRef) (s : State) : Out := .next (s.copyReg x y)

/-- R103: `x[x] <- STK[s(x[y]) + u(z)]`. -/
def execLd (x y : RegRef) (disp : Byte) (s : State) : Out := .next (s.loadStack x y disp)

/-- R104: `STK[s(x[x]) + u(y)] <- x[z]`. -/
def execSt (x : RegRef) (disp : Byte) (z : RegRef) (s : State) : Out := .next (s.storeStack x disp z)

end Sys2Proof.Machine
end

