-- ==== Sys2Proof/Machine/System.lean ====
section
/-! DEFINITION. PRINT and BRK (45_system.md R170, R171). -/

namespace Sys2Proof.Machine

/-- `Print(v)`: one call of the sink, recorded as PRINTLOG <- PRINTLOG ++ [v] (R170, R173). -/
def State.printWord (s : State) (v : Word) : State := { s with printLog := s.printLog ++ [v] }

/-- R170. -/
def execPrint (x : RegRef) (s : State) : Out :=
  .next (s.actOnReg x fun v => .ok (s.printWord v))

/-- R171: nothing but the advance. -/
def execBrk (s : State) : Out := .next s.advance

end Sys2Proof.Machine
end

