-- ==== Sys2Proof/Machine/Dispatch.lean ====
section
/-! DEFINITION. Line 8 of the step (40_step_and_addressing.md R83): perform the rule of the opcode, and advance PC. -/

namespace Sys2Proof.Machine

def exec (i : Instr) (s : State) : Host.Outcome State Fault Refusal :=
  match i with
  | .li x imm => Sys2Proof.Machine.execLi x imm s
  | .lu x imm => Sys2Proof.Machine.execLu x imm s
  | .mov x y => Sys2Proof.Machine.execMov x y s
  | .ld x y disp => Sys2Proof.Machine.execLd x y disp s
  | .st x disp z => Sys2Proof.Machine.execSt x disp z s
  | .add x y z => Sys2Proof.Machine.execAdd x y z s
  | .sub x y z => Sys2Proof.Machine.execSub x y z s
  | .mul x y z => Sys2Proof.Machine.execMul x y z s
  | .div x y z => Sys2Proof.Machine.execDiv x y z s
  | .mod x y z => Sys2Proof.Machine.execMod x y z s
  | .inc x imm => Sys2Proof.Machine.execInc x imm s
  | .nand x y z => Sys2Proof.Machine.execNand x y z s
  | .shl x y z => Sys2Proof.Machine.execShl x y z s
  | .shr x y z => Sys2Proof.Machine.execShr x y z s
  | .print x => Sys2Proof.Machine.execPrint x s
  | .frame imm => Sys2Proof.Machine.execFrame imm s
  | .mkc x payload => Sys2Proof.Machine.execMkc x payload s
  | .retain x => Sys2Proof.Machine.execRetain x s
  | .release x => Sys2Proof.Machine.execRelease x s
  | .aux slot => Sys2Proof.Machine.execAux slot s
  | .fn size entry => Sys2Proof.Machine.execFn size entry s
  | .fnrx size y => Sys2Proof.Machine.execFnrx size y s
  | .ret => Sys2Proof.Machine.execRet s
  | .brk => Sys2Proof.Machine.execBrk s

end Sys2Proof.Machine
end

