-- ==== Sys2Proof/Machine/Step.lean ====
section
/-! DEFINITION. One step (40_step_and_addressing.md R83): a RUNNING machine begins a step, decodes and executes; a machine
that is IDLE or HALTED performs the host's next run request, or has no step (R89, R214). -/

namespace Sys2Proof.Machine

def step (s : State) : Host.Outcome State Fault Refusal :=
  match s.status with
  | .idle => s.awaitRequest
  | .halted => s.awaitRequest
  | .running =>
    match s.beginStep with
    | .ended t => .next t
    | .fetched w t =>
      match decode w with
      | .unrecognizedOpcode _ => .next (t.raise .decodeError)
      | .instr i => exec i t

/-- The host's entry: see `State.placeWord` (log 4). -/
def State.withFetchWord (s : State) (nbits w : Nat) : State := s.placeWord (tableWord nbits w)

end Sys2Proof.Machine
end

