-- ==== Sys2Proof/Safety.lean ====
section
/-! DEFINITION. What holds at every step boundary of a run (10_state.md R31), and what a halt may be: the terms the
statements use. R32 lists what is NOT an invariant; none of it stands here. -/

namespace Sys2Proof.Machine

/-- Both memories are in canonical form (log 3). -/
def State.MemoryOk (s : State) : Prop := Memory.wf 65536 s.stk ∧ Memory.wf 16384 s.cp

/-- The allocator's invariants, R31 items 1 to 4: RC[0] = 0; CNT is at most 255; PERM[0..254] are indexes 1 to 255 and
POS is its inverse; an index is among the first CNT entries exactly when its count is not 0. -/
structure State.AllocOk (s : State) : Prop where
  rcNull    : s.rcOf 0 = 0
  cntLe     : s.cnt ≤ 255
  posLt     : ∀ i : ClosureIx, i ≠ 0 → s.posOf i < 255
  permPos   : ∀ i : ClosureIx, i ≠ 0 → s.permAt (s.posOf i) = i
  permNe    : ∀ j, j < 255 → s.permAt j ≠ 0
  posPerm   : ∀ j, j < 255 → s.posOf (s.permAt j) = j
  liveIff   : ∀ i : ClosureIx, i ≠ 0 → (s.rcOf i ≠ 0 ↔ s.posOf i < s.cnt)

/-- The control invariants, R31 items 5, 6 and 8: TICK is at most LIMIT; PC is 0 to 65,536, and a saved PC addresses an
instruction; while RUNNING the call save stack has a record. -/
structure State.ControlOk (s : State) : Prop where
  tickLe   : s.tick.toNat ≤ s.limit.toNat
  pcLe     : s.pc.toNat ≤ 65536
  savedPc  : ∀ f ∈ s.cstk, f.pc.toNat ≤ 65535
  stackNe  : s.status = .running → s.cstk ≠ []

/-- A location of the address space: every one `Loc` names is one. -/
def Loc.valid : Loc → Prop
  | .stk a => a < 65536
  | .cp _ _ => True

/-! ## Frames -/

/-- Every word of both spaces reads in `t` as in `s`. -/
def SameMemory (s t : State) : Prop := ∀ l : Loc, t.readLoc l = s.readLoc l

/-- Every word but the one at `l` reads in `t` as in `s`. -/
def SameMemoryBut (l : Loc) (s t : State) : Prop := ∀ m : Loc, m ≠ l → t.readLoc m = s.readLoc m

/-- The four windows stand where they stood. -/
def SameWindows (s t : State) : Prop := t.fw = s.fw ∧ t.cw = s.cw ∧ t.aw = s.aw ∧ t.gw = s.gw

/-- The allocator's registers are unchanged. -/
def SameAllocator (s t : State) : Prop := t.rc = s.rc ∧ t.perm = s.perm ∧ t.pos = s.pos ∧ t.cnt = s.cnt

/-- Budget, run status, parameters and the hook and run ports are unchanged. -/
def SameRun (s t : State) : Prop :=
  t.tick = s.tick ∧ t.limit = s.limit ∧ t.status = s.status ∧ t.code = s.code ∧ t.params = s.params ∧
    t.hook = s.hook ∧ t.hookLog = s.hookLog ∧ t.requests = s.requests

/-- Everything but memory and PC is unchanged. -/
def SameElse (s t : State) : Prop :=
  SameWindows s t ∧ SameAllocator s t ∧ SameRun s t ∧ t.cstk = s.cstk ∧ t.printLog = s.printLog ∧
    t.elections = s.elections

/-! ## How an instruction ends -/

/-- The instruction completes: the word at `l` becomes `v`, every other word of both spaces stays, PC advances by one word,
and nothing else changes. -/
def CompletesWriting (i : Instr) (s : State) (l : Loc) (v : Word) : Prop :=
  ∃ t, exec i s = .next t ∧ t.readLoc l = v ∧ SameMemoryBut l s t ∧ t.pc = s.pc + 1 ∧ SameElse s t

/-- The instruction takes the halt `e`: STATUS is HALTED and CODE the code of `e` in the machine's HALT table, and nothing
else changes (60_exceptions.md R186). -/
def HaltsWith (i : Instr) (s : State) (e : Halt) : Prop :=
  exec i s = .next { s with status := .halted, code := s.haltCode e }

/-- The halts an instruction itself can raise (60_exceptions.md R182). -/
def raisable : Instr → List Halt
  | .li .. | .lu .. | .inc .. | .print .. | .mov .. | .ld .. | .st .. => [.memoryFault]
  | .add .. | .sub .. | .mul .. | .nand .. | .shl .. | .shr .. => [.memoryFault]
  | .div .. | .mod .. => [.memoryFault, .divideByZero]
  | .mkc .. => [.memoryFault, .allocExhausted]
  | .retain .. | .release .. => [.memoryFault, .refcountViolation]
  | .fnrx .. => [.memoryFault, .callDepthExceeded]
  | .fn .. => [.callDepthExceeded]
  | .aux .. | .frame .. | .ret | .brk => []

/-! ## Runs -/

/-- The callee's part of a run: steps of a RUNNING machine during which the call save stack stays deeper than `d`. -/
inductive RunsAbove (d : Nat) : State → State → Prop where
  | refl (s : State) : RunsAbove d s s
  | step {s t u : State} (hr : s.status = .running) (hs : step s = .next t) (hd : d < t.cstk.length)
      (hu : RunsAbove d t u) : RunsAbove d s u

end Sys2Proof.Machine
end

