-- ==== Sys2Proof/Certificates/Slice0/Obligations.lean ====
section
/-! DEFINITION. The statements for the provers. Each docstring names the rule of spec/ it formalises; where a clause rests
on a decision the spec marks as its own (D<n> of 92_eei_decisions.md), on an inference it marks [derived], or on a log entry
of this model, the docstring says so. In every statement the opcode numbers and the positions of the fields are the spec's
decisions D1 to D4 (log 14). The number of a halt's code is the machine's HALT table's (`State.haltCode`; decision D8 leaves
the table open, log 9): a statement names the cause, and HaltTableDefaultsAndDistinctness gives the default numbers. -/

open Sys2Proof Sys2Proof.Machine

/-! ## Encoding -/

/-- Words written out in the spec beside their rules decode to the instructions they stand for (30_encoding.md R61 to R66;
positions and numbers are the spec's decisions D1 to D4). -/
def Obligations.SpecExampleWordsDecode : Prop :=
  decode 0x00050000 = .instr (.li ⟨.frame, 0⟩ 5) ∧
  decode 0x12340001 = .instr (.lu ⟨.frame, 0⟩ 0x1234) ∧
  decode 0x00C08102 = .instr (.mov ⟨.auxiliary, 1⟩ ⟨.global, 0⟩) ∧
  decode 0x03010003 = .instr (.ld ⟨.frame, 0⟩ ⟨.frame, 1⟩ 3) ∧
  decode 0x40010004 = .instr (.st ⟨.frame, 0⟩ 1 ⟨.closure, 0⟩) ∧
  decode 0x80404006 = .instr (.sub ⟨.closure, 0⟩ ⟨.closure, 0⟩ ⟨.auxiliary, 0⟩) ∧
  decode 0xFFFD000F = .instr (.frame 0xFFFD) ∧
  decode 0xFE000314 = .instr (.fn 3 0xFE00) ∧
  decode 0x00020315 = .instr (.fnrx 3 ⟨.frame, 2⟩) ∧
  decode 0xFFFFFF16 = .instr .ret ∧
  decode 0x00000018 = .unrecognizedOpcode 0x18

/-- Decoding the encoding of any instruction gives it back, with every operand at every value (R61, R66, R72). -/
def Obligations.DecodeOfEncodeIsIdentity : Prop := ∀ i : Instr, decode (encode i) = .instr i

/-- The other direction: a word written as a producer should write it (0 in every unused field, R68) is the encoding of
what it decodes to. -/
def Obligations.EncodeOfDecodeOnCanonicalWords : Prop :=
  ∀ (w : Word) (i : Instr), wordCanonical w = true → decode w = .instr i → encode i = w

/-- A field a format does not use is ignored (R65, R68; decision D24): z of MOV and FNRX, y and z of PRINT, RETAIN, RELEASE
and AUX, x of FRAME, all three of RET and BRK. -/
def Obligations.UnusedFieldsAreIgnored : Prop :=
  ∀ (op x y z x' y' z' : Byte),
    (op.toNat ∈ [2, 21] → decode (pack op x y z) = decode (pack op x y z')) ∧
    (op.toNat ∈ [14, 17, 18, 19] → decode (pack op x y z) = decode (pack op x y' z')) ∧
    (op.toNat = 15 → decode (pack op x y z) = decode (pack op x' y z)) ∧
    (op.toNat ∈ [22, 23] → decode (pack op x y z) = decode (pack op x' y' z'))

/-- R69: the decoder refuses exactly the opcodes 24 to 255; executing such a word, once the hook (if any) has seen it and
returned 0, raises DecodeError and changes no state but TICK, STATUS, CODE (and the hook port's own record). -/
def Obligations.IllegalOpcodesRaiseDecodeError : Prop :=
  (∀ w : Word, (∃ op, decode w = .unrecognizedOpcode op) ↔ 24 ≤ (opField w).toNat) ∧
  ∀ s : State, s.status = .running → s.tick.toNat < s.limit.toNat → s.pc.toNat ≤ 65535 → s.hookAnswer = 0 →
    24 ≤ (opField s.fetchWord).toNat →
    ∃ hk log, step s = .next { s with tick := s.tick + 1, status := .halted, code := s.haltCode .decodeError, hook := hk, hookLog := log } ∧
      (s.hook = none → hk = none ∧ log = s.hookLog) ∧
      (s.hook ≠ none → log = s.hookLog ++ [⟨s.pc.setWidth 16, s.fetchWord⟩])

/-! ## Registers -/

/-- R80: the location a register reference names, for each of the four selectors; `none` is the MemoryFault. -/
def Obligations.AddressingEngineResolvesReferences : Prop :=
  ∀ (s : State) (r : Byte),
    let off := r.extractLsb' 0 6
    let a := s.fw.toInt + (off.toNat : Int)
    let g := s.gw.toNat + off.toNat
    (r.extractLsb' 6 2 = 0 → s.loc (RegRef.ofByte r) = if a < 0 ∨ 65535 < a then none else some (.stk a.toNat)) ∧
    (r.extractLsb' 6 2 = 1 → s.loc (RegRef.ofByte r) = some (.cp s.cw off)) ∧
    (r.extractLsb' 6 2 = 2 → s.loc (RegRef.ofByte r) = some (.cp s.aw off)) ∧
    (r.extractLsb' 6 2 = 3 → s.loc (RegRef.ofByte r) = if 65535 < g then none else some (.stk g))

/-- R81: a register read is the Word at `Loc(r)` and a register write changes that one word and nothing else, so the value
read back through the same reference is the value written; a read (MOV's source) and a write (LI's destination) raise
MemoryFault exactly when `Loc(r)` does. The read without an instruction is the introspection port's (R174). -/
def Obligations.RegisterWriteChangesOneWord : Prop :=
  ∀ (s : State) (r : RegRef) (v : Word),
    (s.loc r = none → s.introspect r = none ∧ (∀ imm, HaltsWith (.li r imm) s .memoryFault) ∧
      ∀ x, HaltsWith (.mov x r) s .memoryFault) ∧
    ∀ l, s.loc r = some l → s.introspect r = some (s.readLoc l) ∧
      (∀ imm, CompletesWriting (.li r imm) s l (BitVec.ofNat 32 imm.toNat)) ∧
      (∀ x m, s.loc x = some m → CompletesWriting (.mov x r) s m (s.readLoc l)) ∧
      (s.writeLoc l v).introspect r = some v ∧ SameMemoryBut l s (s.writeLoc l v) ∧
      (s.writeLoc l v).pc = s.pc ∧ SameElse s (s.writeLoc l v)

/-- Registers are views (10_state.md R11, R12): `f` and `g` names denote one word of STK exactly when
`s(FW) + i = GW + j`, and `c` and `a` names one word of CP exactly when the slots and the offsets agree. -/
def Obligations.OverlappingWindowsNameOneWord : Prop :=
  ∀ (s : State) (i j : BitVec 6),
    (∀ l m, s.loc ⟨.frame, i⟩ = some l → s.loc ⟨.global, j⟩ = some m →
      (l = m ↔ s.fw.toInt + (i.toNat : Int) = (s.gw.toNat : Int) + (j.toNat : Int))) ∧
    (∀ l m, s.loc ⟨.closure, i⟩ = some l → s.loc ⟨.auxiliary, j⟩ = some m → (l = m ↔ s.cw = s.aw ∧ i = j))

/-! ## Data movement -/

/-- R100, LI: encoding, result (0 to 65,535 in the whole Word), frame, and the MemoryFault that writes nothing. -/
def Obligations.LiLoadsZeroExtendedImmediate : Prop :=
  (∀ w : Word, opField w = 0x00 → decode w = .instr (.li (RegRef.ofByte (xField w)) (yzField w))) ∧
  ∀ (s : State) (x : RegRef) (imm : Half),
    (∀ l, s.loc x = some l → CompletesWriting (.li x imm) s l (BitVec.ofNat 32 imm.toNat)) ∧
    (s.loc x = none → HaltsWith (.li x imm) s .memoryFault)

/-- R101, LU: the immediate is ORed into bits [31:16]; the low 16 bits and the bits already set stay. -/
def Obligations.LuOrsImmediateIntoUpperHalf : Prop :=
  (∀ w : Word, opField w = 0x01 → decode w = .instr (.lu (RegRef.ofByte (xField w)) (yzField w))) ∧
  ∀ (s : State) (x : RegRef) (imm : Half),
    (∀ l, s.loc x = some l → ∃ v, CompletesWriting (.lu x imm) s l v ∧
      (∀ k, k < 16 → v.getLsbD k = (s.readLoc l).getLsbD k) ∧
      (∀ k, k < 16 → v.getLsbD (16 + k) = ((s.readLoc l).getLsbD (16 + k) || imm.getLsbD k))) ∧
    (s.loc x = none → HaltsWith (.lu x imm) s .memoryFault)

/-- R102, MOV: source and destination in any windows; z unused. -/
def Obligations.MovCopiesRegister : Prop :=
  (∀ w : Word, opField w = 0x02 → decode w = .instr (.mov (RegRef.ofByte (xField w)) (RegRef.ofByte (yField w)))) ∧
  ∀ (s : State) (x y : RegRef),
    (∀ l m, s.loc x = some l → s.loc y = some m → CompletesWriting (.mov x y) s l (s.readLoc m)) ∧
    (s.loc x = none ∨ s.loc y = none → HaltsWith (.mov x y) s .memoryFault)

/-- R103, LD (decisions D7, D11): the index is the signed base plus the unsigned displacement, a mathematical integer,
absolute in STK; out of 0 to 65,535 it is a MemoryFault. -/
def Obligations.LdLoadsStackWordAtSignedIndex : Prop :=
  ∀ (s : State) (x y : RegRef) (d : Byte),
    (∀ l m, s.loc x = some l → s.loc y = some m →
      (0 ≤ (s.readLoc m).toInt + d.toNat → (s.readLoc m).toInt + d.toNat ≤ 65535 →
        CompletesWriting (.ld x y d) s l (s.readLoc (.stk ((s.readLoc m).toInt + d.toNat).toNat))) ∧
      ((s.readLoc m).toInt + d.toNat < 0 ∨ 65535 < (s.readLoc m).toInt + d.toNat → HaltsWith (.ld x y d) s .memoryFault)) ∧
    (s.loc x = none ∨ s.loc y = none → HaltsWith (.ld x y d) s .memoryFault)

/-- R104, ST (decisions D7, D11): x is the base and a source, no register is written; the word stored is at the computed
index, base and source being read before the write. -/
def Obligations.StStoresWordAtSignedIndex : Prop :=
  ∀ (s : State) (x : RegRef) (d : Byte) (z : RegRef),
    (∀ l m, s.loc x = some l → s.loc z = some m →
      (0 ≤ (s.readLoc l).toInt + d.toNat → (s.readLoc l).toInt + d.toNat ≤ 65535 →
        CompletesWriting (.st x d z) s (.stk ((s.readLoc l).toInt + d.toNat).toNat) (s.readLoc m)) ∧
      ((s.readLoc l).toInt + d.toNat < 0 ∨ 65535 < (s.readLoc l).toInt + d.toNat → HaltsWith (.st x d z) s .memoryFault)) ∧
    (s.loc x = none ∨ s.loc z = none → HaltsWith (.st x d z) s .memoryFault)

/-- Fetch is coherent with stores (20_memory.md R54, [derived] there): after an ST to the word after it, the word the next
fetch reads is the word stored. -/
def Obligations.StoredWordIsFetchedNext : Prop :=
  ∀ (s : State) (x : RegRef) (d : Byte) (z : RegRef) (l m : Loc), s.loc x = some l → s.loc z = some m →
    s.pc.toNat < 65535 → (s.readLoc l).toInt + d.toNat = s.pc.toNat + 1 →
    ∃ t, exec (.st x d z) s = .next t ∧ t.fetchWord = s.readLoc m

/-! ## Arithmetic -/

/-- R110, R112, R113, R114: ADD, SUB and MUL keep the low 32 bits of the mathematical result of the signed operands. -/
def Obligations.AddSubMulWrapMathematicalResult : Prop :=
  (∀ w : Word, opField w = 0x05 → decode w = .instr (.add (RegRef.ofByte (xField w)) (RegRef.ofByte (yField w))
    (RegRef.ofByte (zField w)))) ∧
  (∀ w : Word, opField w = 0x06 → decode w = .instr (.sub (RegRef.ofByte (xField w)) (RegRef.ofByte (yField w))
    (RegRef.ofByte (zField w)))) ∧
  (∀ w : Word, opField w = 0x07 → decode w = .instr (.mul (RegRef.ofByte (xField w)) (RegRef.ofByte (yField w))
    (RegRef.ofByte (zField w)))) ∧
  ∀ (s : State) (x y z : RegRef),
    (∀ lx ly lz, s.loc x = some lx → s.loc y = some ly → s.loc z = some lz →
      let p := (s.readLoc ly).toInt
      let q := (s.readLoc lz).toInt
      CompletesWriting (.add x y z) s lx (BitVec.ofInt 32 (p + q)) ∧
      CompletesWriting (.sub x y z) s lx (BitVec.ofInt 32 (p - q)) ∧
      CompletesWriting (.mul x y z) s lx (BitVec.ofInt 32 (p * q))) ∧
    (s.loc x = none ∨ s.loc y = none ∨ s.loc z = none →
      HaltsWith (.add x y z) s .memoryFault ∧ HaltsWith (.sub x y z) s .memoryFault ∧ HaltsWith (.mul x y z) s .memoryFault)

/-- R117, INC: the unsigned immediate is added, wrapping. -/
def Obligations.IncAddsUnsignedImmediate : Prop :=
  (∀ w : Word, opField w = 0x0A → decode w = .instr (.inc (RegRef.ofByte (xField w)) (yzField w))) ∧
  ∀ (s : State) (x : RegRef) (imm : Half),
    (∀ l, s.loc x = some l →
      CompletesWriting (.inc x imm) s l (BitVec.ofInt 32 ((s.readLoc l).toInt + imm.toNat))) ∧
    (s.loc x = none → HaltsWith (.inc x imm) s .memoryFault)

/-- R118, NAND: bit by bit. -/
def Obligations.NandIsBitwise : Prop :=
  (∀ w : Word, opField w = 0x0B → decode w = .instr (.nand (RegRef.ofByte (xField w)) (RegRef.ofByte (yField w))
    (RegRef.ofByte (zField w)))) ∧
  ∀ (s : State) (x y z : RegRef),
    (∀ lx ly lz, s.loc x = some lx → s.loc y = some ly → s.loc z = some lz →
      ∃ v, CompletesWriting (.nand x y z) s lx v ∧
        ∀ k, k < 32 → v.getLsbD k = !((s.readLoc ly).getLsbD k && (s.readLoc lz).getLsbD k)) ∧
    (s.loc x = none ∨ s.loc y = none ∨ s.loc z = none → HaltsWith (.nand x y z) s .memoryFault)

/-- R119, R120 (decision D10, log 11): the count is the low 5 bits of the second source; SHL is multiplication by a power of
two, wrapped; SHR is division by it, rounded down, of the signed value. -/
def Obligations.ShiftsScaleByPowerOfTwo : Prop :=
  ∀ (s : State) (x y z : RegRef),
    (∀ lx ly lz, s.loc x = some lx → s.loc y = some ly → s.loc z = some lz →
      let n := (s.readLoc lz).toNat % 32
      CompletesWriting (.shl x y z) s lx (BitVec.ofNat 32 ((s.readLoc ly).toNat * 2 ^ n)) ∧
      CompletesWriting (.shr x y z) s lx (BitVec.ofInt 32 ((s.readLoc ly).toInt / 2 ^ n))) ∧
    (s.loc x = none ∨ s.loc y = none ∨ s.loc z = none → HaltsWith (.shl x y z) s .memoryFault ∧ HaltsWith (.shr x y z) s .memoryFault)

/-- R115, R116 (decision D9, log 11): for a divisor not 0, DIV writes the quotient rounded toward zero and MOD the remainder
with the dividend's sign, both wrapped (so -2^31 / -1 gives -2^31, remainder 0). -/
def Obligations.DivModTruncateTowardZero : Prop :=
  ∀ (s : State) (x y z : RegRef) (lx ly lz : Loc), s.loc x = some lx → s.loc y = some ly → s.loc z = some lz →
    s.readLoc lz ≠ 0 →
    CompletesWriting (.div x y z) s lx (BitVec.ofInt 32 ((s.readLoc ly).toInt.tdiv (s.readLoc lz).toInt)) ∧
    CompletesWriting (.mod x y z) s lx (BitVec.ofInt 32 ((s.readLoc ly).toInt.tmod (s.readLoc lz).toInt))

/-- R115, R116: a zero divisor halts with DivideByZero and writes nothing; an operand out of range is a MemoryFault,
which has priority over it. -/
def Obligations.DivModByZeroHalts : Prop :=
  ∀ (s : State) (x y z : RegRef),
    (∀ lx ly lz, s.loc x = some lx → s.loc y = some ly → s.loc z = some lz → s.readLoc lz = 0 →
      HaltsWith (.div x y z) s .divideByZero ∧ HaltsWith (.mod x y z) s .divideByZero) ∧
    (s.loc x = none ∨ s.loc y = none ∨ s.loc z = none → HaltsWith (.div x y z) s .memoryFault ∧ HaltsWith (.mod x y z) s .memoryFault)

/-- R121 ([derived] there), for the equation: for every p and every q other than 0, `wrap32(s(q) * s(DIV) + s(MOD)) = p`.
That the quotient is rounded toward zero, and so that the remainder is smaller in size than the divisor and has the
dividend's sign or is 0, rests on decision D9, which the model takes as fixed (log 11, DESIGN CHOICE). -/
def Obligations.QuotientAndRemainderRecoverDividend : Prop :=
  ∀ p q : Word, q ≠ 0 → ∃ d m, aluDiv p q = .ok d ∧ aluMod p q = .ok m ∧
    BitVec.ofInt 32 (q.toInt * d.toInt + m.toInt) = p ∧ m.toInt.natAbs < q.toInt.natAbs ∧
    (m.toInt = 0 ∨ (m.toInt < 0 ↔ p.toInt < 0))

/-! ## Closures -/

/-- R136, MKC (decisions D6, D15, D17): with a free index and a destination in range it completes: a free index of 1 to 255
(the first free entry of the swap list under the reference policy) gets count 1, AW names its slot, and the tagged value is
at the destination resolved with the NEW AW; nothing else changes. -/
def Obligations.MkcAllocatesAndTags : Prop :=
  ∀ (s : State) (x : RegRef) (p : Half), s.AllocOk → s.cnt < 255 → s.loc x ≠ none →
    ∃ t i m, exec (.mkc x p) s = .next t ∧ i ≠ 0 ∧ s.rcOf i = 0 ∧
      (s.params.allocPolicy = .reference → i = s.permAt s.cnt ∧ t.perm = s.perm ∧ t.pos = s.pos) ∧
      t.rcOf i = 1 ∧ (∀ k, k ≠ i → t.rcOf k = s.rcOf k) ∧ t.cnt = s.cnt + 1 ∧ t.aw = i ∧
      t.loc x = some m ∧ t.readLoc m = BitVec.ofNat 32 (i.toNat * 2 ^ 24 + p.toNat) ∧ SameMemoryBut m s t ∧
      t.pc = s.pc + 1 ∧ t.fw = s.fw ∧ t.cw = s.cw ∧ t.gw = s.gw ∧ t.cstk = s.cstk ∧ t.printLog = s.printLog ∧ SameRun s t

/-- R136: a frame or global destination out of range is a MemoryFault, checked first; with all 255 closures live it is
AllocExhausted. Either way nothing is allocated. -/
def Obligations.MkcHaltsWithoutAllocating : Prop :=
  ∀ (s : State) (x : RegRef) (p : Half),
    (s.loc x = none → HaltsWith (.mkc x p) s .memoryFault) ∧
    (s.loc x ≠ none → 255 ≤ s.cnt → HaltsWith (.mkc x p) s .allocExhausted)

/-- R137, RETAIN: the index is the top byte of the register; index 0 is a no-op; a free index, or a count at its maximum,
is RefcountViolation; else the count goes up by one and nothing else changes. -/
def Obligations.RetainIncrementsLiveCount : Prop :=
  (∀ w : Word, opField w = 0x11 → decode w = .instr (.retain (RegRef.ofByte (xField w)))) ∧
  ∀ (s : State) (x : RegRef),
    (s.loc x = none → HaltsWith (.retain x) s .memoryFault) ∧
    ∀ l, s.loc x = some l →
      let i := (s.readLoc l).extractLsb' 24 8
      (i = 0 → exec (.retain x) s = .next { s with pc := s.pc + 1 }) ∧
      (i ≠ 0 → (s.rcOf i).toNat = 0 ∨ (s.rcOf i).toNat = 2 ^ 32 - 1 → HaltsWith (.retain x) s .refcountViolation) ∧
      (i ≠ 0 → 0 < (s.rcOf i).toNat → (s.rcOf i).toNat < 2 ^ 32 - 1 →
        ∃ t, exec (.retain x) s = .next t ∧ (t.rcOf i).toNat = (s.rcOf i).toNat + 1 ∧
          (∀ k, k ≠ i → t.rcOf k = s.rcOf k) ∧ t.perm = s.perm ∧ t.pos = s.pos ∧ t.cnt = s.cnt ∧ t.pc = s.pc + 1 ∧
          SameMemory s t ∧ SameWindows s t ∧ t.cstk = s.cstk ∧ t.printLog = s.printLog ∧ SameRun s t ∧
          t.elections = s.elections)

/-- R138, RELEASE: the index is the top byte of the register; index 0 is a no-op; a count of 0 is RefcountViolation;
else the count goes down by one, and neither a register word nor a slot word nor a window changes; a count that reaches
zero makes the index free again, and then CNT is one less. That the freed index is the first free one holds where the
allocator's invariant does (R31, R134; decisions D17, D18; that a freed slot keeps its words is D18, log 12). -/
def Obligations.ReleaseDecrementsLiveCount : Prop :=
  (∀ w : Word, opField w = 0x12 → decode w = .instr (.release (RegRef.ofByte (xField w)))) ∧
  ∀ (s : State) (x : RegRef),
    (s.loc x = none → HaltsWith (.release x) s .memoryFault) ∧
    ∀ l, s.loc x = some l →
      let i := (s.readLoc l).extractLsb' 24 8
      (i = 0 → exec (.release x) s = .next { s with pc := s.pc + 1 }) ∧
      (i ≠ 0 → (s.rcOf i).toNat = 0 → HaltsWith (.release x) s .refcountViolation) ∧
      (i ≠ 0 → 0 < (s.rcOf i).toNat →
        ∃ t, exec (.release x) s = .next t ∧ (t.rcOf i).toNat = (s.rcOf i).toNat - 1 ∧
          (∀ k, k ≠ i → t.rcOf k = s.rcOf k) ∧
          (1 < (s.rcOf i).toNat → t.perm = s.perm ∧ t.pos = s.pos ∧ t.cnt = s.cnt) ∧
          ((s.rcOf i).toNat = 1 → t.cnt = s.cnt - 1 ∧ (s.AllocOk → t.permAt t.cnt = i)) ∧ t.pc = s.pc + 1 ∧
          SameMemory s t ∧ SameWindows s t ∧ t.cstk = s.cstk ∧ t.printLog = s.printLog ∧ SameRun s t ∧
          t.elections = s.elections)

/-- R134 (decisions D17, D18): when the count reaches zero the index returns to the free set and is its first entry. The
premise is the allocator's invariant (R31). -/
def Obligations.FreeingReleaseReturnsIndexFirst : Prop :=
  ∀ (s t : State) (i : ClosureIx), s.AllocOk → i ≠ 0 → s.rcOf i = 1 → s.release i = .ok t →
    t.rcOf i = 0 ∧ t.cnt = s.cnt - 1 ∧ 0 < s.cnt ∧ t.permAt t.cnt = i ∧ t.AllocOk

/-- R135 item 4 ([derived] there; reference policy): a just-allocated index that is released is the one the next Allocate
returns. -/
def Obligations.ReleasedIndexIsReallocatedFirst : Prop :=
  ∀ (s t u : State) (i : ClosureIx), s.AllocOk → s.params.allocPolicy = .reference → s.allocate = .ok (i, t) →
    t.release i = .ok u → ∃ v, u.allocate = .ok (i, v)

/-- R135 item 3 ([derived] there): `retain(c); release(c)` leaves every count, and so every liveness, as it was. -/
def Obligations.BalancedRetainReleaseKeepsCounts : Prop :=
  ∀ (s t : State) (i : ClosureIx), s.retain i = .ok t → ∃ u, t.release i = .ok u ∧ u.rc = s.rc ∧ u.cnt = s.cnt

/-- R31 item 3 ([derived] there), R130: CNT is the number of live closures, at most 255. -/
def Obligations.CntCountsLiveClosures : Prop :=
  ∀ s : State, s.AllocOk →
    ((List.range 256).filter fun n => decide (s.rcOf (BitVec.ofNat 8 n) ≠ 0)).length = s.cnt ∧ s.cnt ≤ 255

/-- R139, AUX (decisions D7, D35): AW <- u(x), whether the closure is live or not, and nothing else. -/
def Obligations.AuxSetsAuxiliaryWindow : Prop :=
  ∀ (s : State) (slot : Byte), exec (.aux slot) s = .next { s with aw := slot, pc := s.pc + 1 }

/-! ## Frames, calls, returns -/

/-- R150, FRAME (decision D12): FW moves by the signed immediate, wrapping, with no range check. -/
def Obligations.FrameAddsSignedImmediate : Prop :=
  ∀ (s : State) (imm : Half),
    exec (.frame imm) s = .next { s with fw := BitVec.ofInt 32 (s.fw.toInt + imm.toInt), pc := s.pc + 1 }

/-- R154 with R153 (decision D21), FN: below the depth limit it pushes (PC, FW, CW), moves the frame up by the unsigned size,
enters with the null closure at the unsigned entry, and changes nothing else; at the limit it is CallDepthExceeded. -/
def Obligations.FnCallsWithNullClosure : Prop :=
  ∀ (s : State) (size : Byte) (entry : Half),
    ((∀ d, s.params.callDepthMax = some d → s.cstk.length < d) →
      exec (.fn size entry) s = .next { s with
        cstk := ⟨s.pc, s.fw, s.cw⟩ :: s.cstk
        fw := BitVec.ofInt 32 (s.fw.toInt + size.toNat)
        cw := 0
        pc := BitVec.ofNat 17 entry.toNat }) ∧
    (∀ d, s.params.callDepthMax = some d → d ≤ s.cstk.length → HaltsWith (.fn size entry) s .callDepthExceeded)

/-- R155 with R64 (decisions D5, D35), FNRX: the descriptor is read with the caller's windows; its entry is bits [15:0], its
closure bits [23:16] (listed) or [31:24] (tagged), its reserved byte is ignored. -/
def Obligations.FnrxCallsThroughDescriptor : Prop :=
  ∀ (s : State) (size : Byte) (y : RegRef),
    (s.loc y = none → HaltsWith (.fnrx size y) s .memoryFault) ∧
    ∀ l, s.loc y = some l →
      ((∀ d, s.params.callDepthMax = some d → s.cstk.length < d) →
        exec (.fnrx size y) s = .next { s with
          cstk := ⟨s.pc, s.fw, s.cw⟩ :: s.cstk
          fw := BitVec.ofInt 32 (s.fw.toInt + size.toNat)
          cw := match s.params.descLayout with
            | .listed => BitVec.ofNat 8 ((s.readLoc l).toNat / 2 ^ 16)
            | .tagged => BitVec.ofNat 8 ((s.readLoc l).toNat / 2 ^ 24)
          pc := BitVec.ofNat 17 ((s.readLoc l).toNat % 2 ^ 16) }) ∧
      (∀ d, s.params.callDepthMax = some d → d ≤ s.cstk.length → HaltsWith (.fnrx size y) s .callDepthExceeded)

/-- R156, RET (decision D22): it restores FW and CW from the popped record; below the Loader's record PC is the saved one
plus one; the Loader's record ends the run with code 0 at the saved PC. Nothing else changes. With CSTK empty, which no run
reaches, the model stops (log 6). -/
def Obligations.RetRestoresSavedRecord : Prop :=
  ∀ s : State,
    (∀ f g rest, s.cstk = f :: g :: rest →
      exec .ret s = .next { s with cstk := g :: rest, fw := f.fw, cw := f.cw, pc := f.pc + 1 }) ∧
    (∀ f, s.cstk = [f] →
      exec .ret s = .next { s with cstk := [], fw := f.fw, cw := f.cw, pc := f.pc, status := .halted, code := 0 }) ∧
    (s.cstk = [] → exec .ret s = .fault .callStackUnderflow)

/-- R152: exactly PC, FW and CW are saved and restored. A call or a return that completes leaves AW, GW, TICK, every register
word and every count as they are, and a return gives back the three values the popped record holds. -/
def Obligations.CallsSaveExactlyPcFwCw : Prop :=
  ∀ (i : Instr) (s t : State), exec i s = .next t →
    (∃ size entry, i = .fn size entry) ∨ (∃ size y, i = .fnrx size y) ∨ i = .ret →
    t.aw = s.aw ∧ t.gw = s.gw ∧ t.tick = s.tick ∧ SameMemory s t ∧ SameAllocator s t ∧
    (i ≠ .ret → t.cstk = ⟨s.pc, s.fw, s.cw⟩ :: s.cstk ∨ (t.status = .halted ∧ t.cstk = s.cstk)) ∧
    (i = .ret → ∃ f, s.cstk = f :: t.cstk ∧ t.fw = f.fw ∧ t.cw = f.cw ∧ (t.cstk ≠ [] → t.pc = f.pc + 1))

/-- R158 ([derived] there): nested calls restore exactly. From a RUNNING state whose step pushed a record, whatever the callee
does while CSTK stays deeper, the step that brings CSTK back to the caller's depth leaves FW, CW and CSTK as they were at the
call, and PC at the word after it. -/
def Obligations.NestedCallRestoresCaller : Prop :=
  ∀ s s₁ u v : State, s.status = .running → s.cstk ≠ [] → step s = .next s₁ → s₁.cstk.length = s.cstk.length + 1 →
    RunsAbove s.cstk.length s₁ u → u.status = .running → step u = .next v → v.cstk.length = s.cstk.length →
    v.pc = s.pc + 1 ∧ v.fw = s.fw ∧ v.cw = s.cw ∧ v.cstk = s.cstk ∧ v.status = .running

/-! ## System -/

/-- R170, PRINT (decision D30): the Word of the register goes to the sink unchanged; nothing else changes. Out of range it is
a MemoryFault and the sink is not called. -/
def Obligations.PrintEmitsWordUnchanged : Prop :=
  ∀ (s : State) (x : RegRef),
    (∀ l, s.loc x = some l →
      exec (.print x) s = .next { s with printLog := s.printLog ++ [s.readLoc l], pc := s.pc + 1 }) ∧
    (s.loc x = none → HaltsWith (.print x) s .memoryFault)

/-- R171, BRK: nothing but the advance; like any step it consumes one budget unit, and the hook is called for it. -/
def Obligations.BrkOnlyAdvances : Prop :=
  (∀ w : Word, opField w = 0x17 → decode w = .instr .brk) ∧
  (∀ s : State, exec .brk s = .next { s with pc := s.pc + 1 }) ∧
  ∀ s : State, s.status = .running → s.tick.toNat < s.limit.toNat → s.pc.toNat ≤ 65535 → s.hookAnswer = 0 →
    opField s.fetchWord = 0x17 → ∃ hk log,
      step s = .next { s with tick := s.tick + 1, pc := s.pc + 1, hook := hk, hookLog := log } ∧
      (s.hook = none → hk = none ∧ log = s.hookLog) ∧
      (s.hook ≠ none → log = s.hookLog ++ [⟨s.pc.setWidth 16, s.fetchWord⟩])

/-! ## The step -/

/-- A step runs the decoded instruction (R83): when the budget, the fetch address and the hook let the step go on and the
fetched word decodes to i, the step is exec of i at the state with TICK one higher and the hook's call recorded. -/
def Obligations.StepExecutesDecodedInstruction : Prop :=
  ∀ (s : State) (i : Instr), s.status = .running → s.tick.toNat < s.limit.toNat → s.pc.toNat ≤ 65535 →
    s.hookAnswer = 0 → decode (s.readLoc (.stk s.pc.toNat)) = .instr i → step s = exec i { s.afterHook with tick := s.tick + 1 }

/-- The order of the checks before dispatch (R83, R185; decisions D14, D15): the budget first, with TICK not incremented; then
the fetch address; then the hook, called with PC[15:0] and the word, whose non-zero answer becomes CODE unchanged (an absent
hook answers 0); PC is not advanced by any of them. The answer of a hook with no settled one is a free value (log 7). -/
def Obligations.StepChecksBudgetFetchHookInOrder : Prop :=
  ∀ s : State, s.status = .running →
    (s.limit.toNat ≤ s.tick.toNat → step s = .next { s with status := .halted, code := s.haltCode .budgetExhausted }) ∧
    (s.tick.toNat < s.limit.toNat → 65535 < s.pc.toNat →
      step s = .next { s with tick := s.tick + 1, status := .halted, code := s.haltCode .memoryFault }) ∧
    (s.hook = none → s.hookAnswer = 0) ∧
    (∀ h rest, s.hook = some (h :: rest) → s.hookAnswer = h) ∧
    (s.tick.toNat < s.limit.toNat → s.pc.toNat ≤ 65535 → s.hookAnswer ≠ 0 → ∃ hk,
      step s = .next { s with tick := s.tick + 1, status := .halted, code := s.hookAnswer, hook := hk,
                              hookLog := s.hookLog ++ [⟨s.pc.setWidth 16, s.readLoc (.stk s.pc.toNat)⟩] } ∧
        (∀ h rest, s.hook = some (h :: rest) → hk = some rest))

/-- Halts are precise (R186, R187; decisions D15, D22): a step that halts a RUNNING machine is either the RET that pops the
last record, with code 0, or it changes nothing but STATUS, CODE and TICK (and the hook port's record); TICK keeps the
increment unless the code is BudgetExhausted's. -/
def Obligations.HaltsArePrecise : Prop :=
  ∀ s t : State, s.status = .running → step s = .next t → t.status = .halted →
    (∃ f, s.cstk = [f] ∧ decode s.fetchWord = .instr .ret ∧ t = { s with
      status := .halted, code := 0, cstk := [], fw := f.fw, cw := f.cw, pc := f.pc, tick := s.tick + 1,
      hook := t.hook, hookLog := t.hookLog }) ∨
    (t = { s with status := .halted, code := t.code, tick := t.tick, hook := t.hook, hookLog := t.hookLog } ∧
      (t.tick = s.tick + 1 ∨ (t.tick = s.tick ∧ t.code = s.haltCode .budgetExhausted ∧ s.limit.toNat ≤ s.tick.toNat)))

/-- Which halts an instruction can raise (R182, [derived] there): only those of the table's row;
RET ends a run with code 0; AUX, FRAME and BRK end none. -/
def Obligations.InstructionsRaiseOnlyTheirOwnHalts : Prop :=
  ∀ (i : Instr) (s t : State), s.status = .running → exec i s = .next t → t.status = .halted →
    (∃ e ∈ raisable i, t.code = s.haltCode e) ∨ (i = .ret ∧ t.code = 0 ∧ ∃ f, s.cstk = [f])

/-- R228: every instruction costs exactly one unit of TICK, a hook call and a print call none, and the Loader's first call
none (a run starts with TICK 0). The model has no other measure of work. -/
def Obligations.EveryInstructionCostsOneTick : Prop :=
  (∀ s t : State, s.status = .running → s.tick.toNat < s.limit.toNat → step s = .next t →
    t.tick.toNat = s.tick.toNat + 1) ∧
  (∀ (i : Instr) (s t : State), exec i s = .next t → t.tick = s.tick) ∧
  (∀ s t : State, ∀ q rest, s.status ≠ .running → s.requests = q :: rest → programWellFormed q.program = true →
    step s = .next t → t.tick = 0)

/-- R90 ([derived] there), the budget law: in a run of k steps that is still RUNNING, TICK has grown by exactly k and stays
within LIMIT, so k is at most the budget left; and when it is used up the next step raises BudgetExhausted with TICK =
LIMIT. -/
def Obligations.BudgetBoundsEveryRun : Prop :=
  ∀ (k : Nat) (s t : State), s.status = .running → s.requests = [] → s.tick.toNat ≤ s.limit.toNat →
    core.run k s = .next t → t.status = .running →
    t.tick.toNat = s.tick.toNat + k ∧ t.limit = s.limit ∧ t.tick.toNat ≤ t.limit.toNat ∧
    (s.tick.toNat + k = s.limit.toNat → step t = .next { t with status := .halted, code := t.haltCode .budgetExhausted })

/-- A RUNNING machine whose control state is sound always has its step: no step of it faults or is refused (R31 item 8,
[derived] there; R83 is total). -/
def Obligations.RunningMachineAlwaysSteps : Prop :=
  ∀ s : State, s.status = .running → s.ControlOk → ∃ t, step s = .next t

/-- A machine that is IDLE or HALTED has no step but the host's next run request (R89, R188, R214; that the host's requests
stand in State is the model's choice, log 4): without one the model's step stops. -/
def Obligations.OnlyRunRequestLeavesIdleOrHalted : Prop :=
  ∀ s : State, s.status ≠ .running →
    (s.requests = [] → step s = .fault .noStep) ∧
    (∀ t, step s = .next t → ∃ q rest, s.requests = q :: rest ∧ t.requests = rest) ∧
    (s.requests ≠ [] → ∃ t, step s = .next t)

/-- R180, R181 (decision D8, log 9): a machine-internal halt's code is its entry of the HALT table, and HookHalt's is the
hook's answer; in a table with the signs and the distinctness of R180 (`haltCodesWellFormed`) every internal code is negative
and tells its cause; the default table is one, with the numbers of R181, and it is the table at power-up; no step changes the
table. -/
def Obligations.HaltTableDefaultsAndDistinctness : Prop :=
  (∀ (s : State) (e : Halt), (s.raise e).code = s.haltCode e) ∧
  (∀ (s : State) (h : Word), s.haltCode (.hookHalt h) = h) ∧
  (∀ s : State, haltCodesWellFormed s.params.haltCodes = true → ∀ e e' : Halt,
    (∀ h, e ≠ .hookHalt h) → (∀ h, e' ≠ .hookHalt h) →
    (s.haltCode e).toInt < 0 ∧ (s.haltCode e = s.haltCode e' → e = e')) ∧
  haltCodesWellFormed HaltCodes.default = true ∧
  HaltCodes.default.toList = [-1, -2, -3, -4, -5, -6, -7, -8] ∧ State.reset.params.haltCodes = HaltCodes.default ∧
  ∀ s t : State, step s = .next t → t.params = s.params

/-- R180 (the codes' signs and their distinctness are the premise on the HALT table): when a step of a RUNNING machine ends
the run, the code is 0 exactly for the normal end, the RET that popped the last record; it is positive only as the answer of
the hook to this step's call; and without a hook it is never positive. -/
def Obligations.OutcomeCodeTellsHowTheRunEnded : Prop :=
  ∀ s t : State, haltCodesWellFormed s.params.haltCodes = true → s.status = .running → step s = .next t →
    t.status = .halted →
    (t.code = 0 ↔ ∃ f, s.cstk = [f] ∧ t.cstk = [] ∧ decode s.fetchWord = .instr .ret) ∧
    (0 < t.code.toInt → s.hook ≠ none ∧ s.hookAnswer = t.code) ∧ (s.hook = none → t.code.toInt ≤ 0)

/-! ## Whole-machine rules -/

/-- R15, R16, R17, R18 (decisions D12, D19, D31): FW is written only by FRAME, FN, FNRX and RET; CW only by FN, FNRX and RET;
AW only by MKC and AUX; GW, LIMIT, HOOK and the parameters by no instruction. -/
def Obligations.WindowsMoveOnlyByNamedInstructions : Prop :=
  ∀ (i : Instr) (s t : State), exec i s = .next t →
    (t.fw ≠ s.fw → (∃ imm, i = .frame imm) ∨ (∃ n e, i = .fn n e) ∨ (∃ n y, i = .fnrx n y) ∨ i = .ret) ∧
    (t.cw ≠ s.cw → (∃ n e, i = .fn n e) ∨ (∃ n y, i = .fnrx n y) ∨ i = .ret) ∧
    (t.aw ≠ s.aw → (∃ x p, i = .mkc x p) ∨ (∃ k, i = .aux k)) ∧
    t.gw = s.gw ∧ t.limit = s.limit ∧ t.hook = s.hook ∧ t.params = s.params ∧ t.requests = s.requests

/-- R22, R23 (decisions D16, D17): a count, PERM, POS or CNT changes only by MKC, RETAIN or RELEASE; PRINTLOG only by PRINT
(R28); CSTK only by FN, FNRX and RET (R24). -/
def Obligations.AllocatorAndLogsChangeOnlyByNamedInstructions : Prop :=
  ∀ (i : Instr) (s t : State), exec i s = .next t →
    (¬ SameAllocator s t → (∃ x p, i = .mkc x p) ∨ (∃ x, i = .retain x) ∨ (∃ x, i = .release x)) ∧
    (t.printLog ≠ s.printLog → ∃ x, i = .print x) ∧
    (t.cstk ≠ s.cstk → (∃ n e, i = .fn n e) ∨ (∃ n y, i = .fnrx n y) ∨ i = .ret)

/-! ## Reset: the Loader -/

/-- The state at power-up (R21, R214): IDLE, no word of either memory written; the values of the other registers are the
model's choice (log 1), and the model's own choice of no pending request (log 4) makes the machine do nothing. -/
def Obligations.PowerUpIsIdle : Prop :=
  State.reset.status = .idle ∧ State.reset.stk = [] ∧ State.reset.cp = [] ∧ step State.reset = .fault .noStep

/-- The state at the first step of a run (R30, R210; decisions D17, D19, D20), for an accepted program and a call depth limit
that is not 0: registers, windows, budget, allocator and CSTK. -/
def Obligations.LoaderEstablishesResetTable : Prop :=
  ∀ (s : State) (q : RunRequest) (rest : List RunRequest), s.status ≠ .running → s.requests = q :: rest →
    1 ≤ q.program.length → q.program.length ≤ 65536 → s.params.callDepthMax ≠ some 0 →
    ∃ t, step s = .next t ∧ t.fw = 0 ∧ t.cw = 0 ∧ t.aw = 0 ∧ t.gw.toNat = 65536 - q.program.length ∧ t.tick = 0 ∧
      t.limit = q.budget ∧ t.status = .running ∧ (∀ i, t.rcOf i = 0) ∧ t.cnt = 0 ∧
      (∀ j, j < 255 → t.permAt j = BitVec.ofNat 8 (j + 1)) ∧ (∀ i : ClosureIx, i ≠ 0 → t.posOf i = i.toNat - 1) ∧
      t.cstk = [⟨0, 0, 0⟩] ∧ t.printLog = [] ∧ t.hook = q.hook

/-- R212, with R25: the Loader copies the program words in order to the tail of STK; the STK words below it and all of CP keep
what they held, and so does every word when a program is rejected. -/
def Obligations.LoaderWritesOnlyTheImage : Prop :=
  ∀ (s : State) (q : RunRequest) (rest : List RunRequest), s.status ≠ .running → s.requests = q :: rest →
    ∃ t, step s = .next t ∧
      (1 ≤ q.program.length → q.program.length ≤ 65536 →
        (∀ k v, q.program[k]? = some v → t.readLoc (.stk (65536 - q.program.length + k)) = v) ∧
        (∀ a, a < 65536 - q.program.length → t.readLoc (.stk a) = s.readLoc (.stk a)) ∧
        (∀ slot off, t.readLoc (.cp slot off) = s.readLoc (.cp slot off))) ∧
      (q.program.length = 0 ∨ 65536 < q.program.length → SameMemory s t)

/-- R213: the entry address is bits [31:16] of the last program word, an absolute STK index, taken as unsigned and not
checked. (A call depth limit of 0 admits no first call, log 13.) -/
def Obligations.LoaderEntersAtTrailerOperand : Prop :=
  ∀ (s : State) (q : RunRequest) (rest : List RunRequest) (p : List Word) (w : Word), s.status ≠ .running →
    s.requests = q :: rest → q.program = p ++ [w] → p.length < 65536 → s.params.callDepthMax ≠ some 0 →
    ∃ t, step s = .next t ∧ t.pc.toNat = w.toNat / 65536 ∧ t.status = .running

/-- R211 (decision D28): an empty program, or one of more than 65,536 words, is rejected with LoadRejected; nothing but STATUS and
CODE changes. -/
def Obligations.LoaderRejectsEmptyOrTooLong : Prop :=
  ∀ (s : State) (q : RunRequest) (rest : List RunRequest), s.status ≠ .running → s.requests = q :: rest →
    q.program.length = 0 ∨ 65536 < q.program.length →
    step s = .next { s with requests := rest, status := .halted, code := s.haltCode .loadRejected }

/-! ## Invariants (10_state.md R31, [derived] there) -/

/-- Every step keeps both memories in canonical form (the model's representation, log 3): indexes rising, inside the space. -/
def Obligations.StepKeepsMemoryCanonical : Prop := ∀ s t : State, s.MemoryOk → step s = .next t → t.MemoryOk

/-- R31 items 1 to 4: every step keeps the allocator's partition: RC[0] = 0, PERM a permutation of 1 to 255 with POS its
inverse, and the live indexes exactly the first CNT entries. -/
def Obligations.StepKeepsAllocatorPartition : Prop := ∀ s t : State, s.AllocOk → step s = .next t → t.AllocOk

/-- R31 items 5, 6 and 8: every step keeps TICK within LIMIT, PC within 0 to 65,536, and a record on CSTK while RUNNING. -/
def Obligations.StepKeepsControlSound : Prop := ∀ s t : State, s.ControlOk → step s = .next t → t.ControlOk

/-- The three invariants hold at power-up (with the values of log 1), so of every state reachable from it. -/
def Obligations.PowerUpMeetsInvariants : Prop :=
  State.reset.MemoryOk ∧ State.reset.AllocOk ∧ State.reset.ControlOk
end

