-- ==== Sys2Proof/Laws/Memory.lean ====
section
/-! SUPPORT. A memory of words: read after write, the canonical form, and that equal memories are equal lists. -/

namespace Sys2Proof.Machine

@[simp] theorem Memory.lookup_nil (a : Nat) : Memory.lookup [] a = none := rfl

theorem Memory.lookup_cons (b : Nat) (v : Word) (m : Memory) (a : Nat) :
    Memory.lookup ((b, v) :: m) a = if a = b then some v else Memory.lookup m a := rfl

/-- Read after write. -/
theorem Memory.lookup_write (m : Memory) (a b : Nat) (v : Word) :
    Memory.lookup (Memory.write m a v) b = if b = a then some v else Memory.lookup m b := by
  induction m with
  | nil => simp [Memory.write, Memory.lookup]
  | cons c m ih =>
    obtain ⟨d, u⟩ := c
    simp only [Memory.write]
    split
    · simp only [Memory.lookup_cons]
    · split
      · rename_i h
        subst h
        simp only [Memory.lookup_cons]
        split <;> rfl
      · simp only [Memory.lookup_cons, ih]
        split <;> split <;> simp_all

@[simp] theorem Memory.lookup_write_same (m : Memory) (a : Nat) (v : Word) :
    Memory.lookup (Memory.write m a v) a = some v := by simp [Memory.lookup_write]

theorem Memory.lookup_write_other (m : Memory) {a b : Nat} (v : Word) (h : b ≠ a) :
    Memory.lookup (Memory.write m a v) b = Memory.lookup m b := by simp [Memory.lookup_write, h]

/-- The indexes a write lists. -/
theorem Memory.mem_write {m : Memory} {a : Nat} {v : Word} {c : Nat × Word} (h : c ∈ Memory.write m a v) :
    c = (a, v) ∨ c ∈ m := by
  induction m with
  | nil => simpa [Memory.write] using h
  | cons d m ih =>
    obtain ⟨b, u⟩ := d
    simp only [Memory.write] at h
    split at h
    · simpa using h
    · split at h
      · rcases List.mem_cons.1 h with h | h
        · exact .inl h
        · exact .inr (List.mem_cons_of_mem _ h)
      · rcases List.mem_cons.1 h with h | h
        · exact .inr (h ▸ List.mem_cons_self)
        · exact (ih h).imp id (List.mem_cons_of_mem _)

theorem Memory.wf_nil (size : Nat) : Memory.wf size [] := by simp [Memory.wf]

theorem Memory.wf_cons {size b : Nat} {u : Word} {m : Memory} :
    Memory.wf size ((b, u) :: m) ↔ (∀ c ∈ m, b < c.1) ∧ b < size ∧ Memory.wf size m := by
  simp only [Memory.wf, List.map_cons, List.pairwise_cons, List.mem_map, List.forall_mem_cons]
  constructor
  · rintro ⟨⟨h1, h2⟩, h3, h4⟩
    exact ⟨fun c hc => h1 c.1 ⟨c, hc, rfl⟩, h3, h2, h4⟩
  · rintro ⟨h1, h3, h2, h4⟩
    refine ⟨⟨?_, h2⟩, h3, h4⟩
    rintro _ ⟨c, hc, rfl⟩
    exact h1 c hc

/-- A write keeps the canonical form. -/
theorem Memory.wf_write {size : Nat} {m : Memory} {a : Nat} {v : Word} (h : Memory.wf size m) (ha : a < size) :
    Memory.wf size (Memory.write m a v) := by
  induction m with
  | nil => exact Memory.wf_cons.2 ⟨by simp, ha, Memory.wf_nil size⟩
  | cons d m ih =>
    obtain ⟨b, u⟩ := d
    obtain ⟨h1, h2, h3⟩ := Memory.wf_cons.1 h
    simp only [Memory.write]
    split
    · rename_i hab
      refine Memory.wf_cons.2 ⟨?_, ha, h⟩
      intro c hc
      rcases List.mem_cons.1 hc with rfl | hc
      · exact hab
      · exact lt_trans hab (h1 c hc)
    · split
      · rename_i hab
        subst hab
        exact Memory.wf_cons.2 ⟨h1, ha, h3⟩
      · refine Memory.wf_cons.2 ⟨?_, h2, ih h3⟩
        intro c hc
        rcases Memory.mem_write hc with rfl | hc
        · show b < a
          omega
        · exact h1 c hc

/-- So does a block write. -/
theorem Memory.wf_writeBlock {size : Nat} (vs : List Word) {m : Memory} {a : Nat} (h : Memory.wf size m)
    (ha : a + vs.length ≤ size) : Memory.wf size (Memory.writeBlock m a vs) := by
  induction vs generalizing m a with
  | nil => exact h
  | cons v vs ih =>
    simp only [List.length_cons] at ha
    exact ih (Memory.wf_write h (by omega)) (by omega)

/-- What a block write leaves: word `i` of the block at `a + i`, every other word as before. -/
theorem Memory.lookup_writeBlock (vs : List Word) (m : Memory) (a b : Nat) :
    Memory.lookup (Memory.writeBlock m a vs) b =
      if a ≤ b ∧ b < a + vs.length then vs[b - a]? else Memory.lookup m b := by
  induction vs generalizing m a with
  | nil =>
    have h : ¬ (a ≤ b ∧ b < a) := by omega
    simp [Memory.writeBlock, h]
  | cons v vs ih =>
    simp only [Memory.writeBlock, ih, List.length_cons]
    by_cases hb : b = a
    · subst hb
      simp
    · rw [Memory.lookup_write_other _ _ hb]
      by_cases h : a + 1 ≤ b ∧ b < a + 1 + vs.length
      · have h2 : a ≤ b ∧ b < a + (vs.length + 1) := by omega
        have h3 : b - a = (b - (a + 1)) + 1 := by omega
        simp [h, h2, h3]
      · have h2 : ¬ (a ≤ b ∧ b < a + (vs.length + 1)) := by omega
        rw [if_neg h, if_neg h2]

/-- An index below every listed one is not listed. -/
theorem Memory.lookup_of_lt {m : Memory} {a : Nat} (h : ∀ c ∈ m, a < c.1) : Memory.lookup m a = none := by
  induction m with
  | nil => rfl
  | cons d m ih =>
    have hd := h d List.mem_cons_self
    rw [Memory.lookup_cons, if_neg (by omega)]
    exact ih fun c hc => h c (List.mem_cons_of_mem _ hc)

/-- Two memories in canonical form that list the same words are the same list. -/
theorem Memory.ext_lookup {size : Nat} {m n : Memory} (hm : Memory.wf size m) (hn : Memory.wf size n)
    (h : ∀ a, Memory.lookup m a = Memory.lookup n a) : m = n := by
  induction m generalizing n with
  | nil =>
    cases n with
    | nil => rfl
    | cons d n =>
      obtain ⟨b, w⟩ := d
      simpa [Memory.lookup_cons] using h b
  | cons c m ih =>
    obtain ⟨a, u⟩ := c
    cases n with
    | nil => simpa [Memory.lookup_cons] using h a
    | cons d n =>
      obtain ⟨b, w⟩ := d
      obtain ⟨hm1, -, hm3⟩ := Memory.wf_cons.1 hm
      obtain ⟨hn1, -, hn3⟩ := Memory.wf_cons.1 hn
      have hab : a = b := by
        rcases Nat.lt_trichotomy a b with hlt | heq | hlt
        · have := h a
          rw [Memory.lookup_cons, if_pos rfl, Memory.lookup_cons, if_neg (by omega),
            Memory.lookup_of_lt fun c hc => lt_trans hlt (hn1 c hc)] at this
          cases this
        · exact heq
        · have := h b
          rw [Memory.lookup_cons, if_neg (by omega), Memory.lookup_of_lt fun c hc => lt_trans hlt (hm1 c hc),
            Memory.lookup_cons, if_pos rfl] at this
          cases this
      subst hab
      have hu : u = w := by simpa [Memory.lookup_cons] using h a
      subst hu
      congr 1
      refine ih hm3 hn3 fun x => ?_
      by_cases hx : x = a
      · rw [hx, Memory.lookup_of_lt hm1, Memory.lookup_of_lt hn1]
      · simpa [Memory.lookup_cons, hx] using h x

end Sys2Proof.Machine
end

