-- ==== Sys2Proof/Laws/State.lean ====
section
/-! SUPPORT. One lemma per field per named update of State, so that no proof unfolds a record update. -/

namespace Sys2Proof.Machine

variable (s : State)

/-! ## writeStk -/

@[simp] theorem State.writeStk_stk (a : Nat) (v : Word) : (s.writeStk a v).stk = Memory.write s.stk a v := rfl
@[simp] theorem State.writeStk_cp (a : Nat) (v : Word) : (s.writeStk a v).cp = s.cp := rfl
@[simp] theorem State.writeStk_pc (a : Nat) (v : Word) : (s.writeStk a v).pc = s.pc := rfl
@[simp] theorem State.writeStk_fw (a : Nat) (v : Word) : (s.writeStk a v).fw = s.fw := rfl
@[simp] theorem State.writeStk_cw (a : Nat) (v : Word) : (s.writeStk a v).cw = s.cw := rfl
@[simp] theorem State.writeStk_aw (a : Nat) (v : Word) : (s.writeStk a v).aw = s.aw := rfl
@[simp] theorem State.writeStk_gw (a : Nat) (v : Word) : (s.writeStk a v).gw = s.gw := rfl
@[simp] theorem State.writeStk_tick (a : Nat) (v : Word) : (s.writeStk a v).tick = s.tick := rfl
@[simp] theorem State.writeStk_limit (a : Nat) (v : Word) : (s.writeStk a v).limit = s.limit := rfl
@[simp] theorem State.writeStk_status (a : Nat) (v : Word) : (s.writeStk a v).status = s.status := rfl
@[simp] theorem State.writeStk_code (a : Nat) (v : Word) : (s.writeStk a v).code = s.code := rfl
@[simp] theorem State.writeStk_rc (a : Nat) (v : Word) : (s.writeStk a v).rc = s.rc := rfl
@[simp] theorem State.writeStk_perm (a : Nat) (v : Word) : (s.writeStk a v).perm = s.perm := rfl
@[simp] theorem State.writeStk_pos (a : Nat) (v : Word) : (s.writeStk a v).pos = s.pos := rfl
@[simp] theorem State.writeStk_cnt (a : Nat) (v : Word) : (s.writeStk a v).cnt = s.cnt := rfl
@[simp] theorem State.writeStk_cstk (a : Nat) (v : Word) : (s.writeStk a v).cstk = s.cstk := rfl
@[simp] theorem State.writeStk_printLog (a : Nat) (v : Word) : (s.writeStk a v).printLog = s.printLog := rfl
@[simp] theorem State.writeStk_hook (a : Nat) (v : Word) : (s.writeStk a v).hook = s.hook := rfl
@[simp] theorem State.writeStk_hookLog (a : Nat) (v : Word) : (s.writeStk a v).hookLog = s.hookLog := rfl
@[simp] theorem State.writeStk_requests (a : Nat) (v : Word) : (s.writeStk a v).requests = s.requests := rfl
@[simp] theorem State.writeStk_params (a : Nat) (v : Word) : (s.writeStk a v).params = s.params := rfl
@[simp] theorem State.writeStk_elections (a : Nat) (v : Word) : (s.writeStk a v).elections = s.elections := rfl

/-! ## writeCp -/

@[simp] theorem State.writeCp_stk (slot : ClosureIx) (off : BitVec 6) (v : Word) : (s.writeCp slot off v).stk = s.stk := rfl
@[simp] theorem State.writeCp_cp (slot : ClosureIx) (off : BitVec 6) (v : Word) : (s.writeCp slot off v).cp = Memory.write s.cp (cpIndex slot off) v := rfl
@[simp] theorem State.writeCp_pc (slot : ClosureIx) (off : BitVec 6) (v : Word) : (s.writeCp slot off v).pc = s.pc := rfl
@[simp] theorem State.writeCp_fw (slot : ClosureIx) (off : BitVec 6) (v : Word) : (s.writeCp slot off v).fw = s.fw := rfl
@[simp] theorem State.writeCp_cw (slot : ClosureIx) (off : BitVec 6) (v : Word) : (s.writeCp slot off v).cw = s.cw := rfl
@[simp] theorem State.writeCp_aw (slot : ClosureIx) (off : BitVec 6) (v : Word) : (s.writeCp slot off v).aw = s.aw := rfl
@[simp] theorem State.writeCp_gw (slot : ClosureIx) (off : BitVec 6) (v : Word) : (s.writeCp slot off v).gw = s.gw := rfl
@[simp] theorem State.writeCp_tick (slot : ClosureIx) (off : BitVec 6) (v : Word) : (s.writeCp slot off v).tick = s.tick := rfl
@[simp] theorem State.writeCp_limit (slot : ClosureIx) (off : BitVec 6) (v : Word) : (s.writeCp slot off v).limit = s.limit := rfl
@[simp] theorem State.writeCp_status (slot : ClosureIx) (off : BitVec 6) (v : Word) : (s.writeCp slot off v).status = s.status := rfl
@[simp] theorem State.writeCp_code (slot : ClosureIx) (off : BitVec 6) (v : Word) : (s.writeCp slot off v).code = s.code := rfl
@[simp] theorem State.writeCp_rc (slot : ClosureIx) (off : BitVec 6) (v : Word) : (s.writeCp slot off v).rc = s.rc := rfl
@[simp] theorem State.writeCp_perm (slot : ClosureIx) (off : BitVec 6) (v : Word) : (s.writeCp slot off v).perm = s.perm := rfl
@[simp] theorem State.writeCp_pos (slot : ClosureIx) (off : BitVec 6) (v : Word) : (s.writeCp slot off v).pos = s.pos := rfl
@[simp] theorem State.writeCp_cnt (slot : ClosureIx) (off : BitVec 6) (v : Word) : (s.writeCp slot off v).cnt = s.cnt := rfl
@[simp] theorem State.writeCp_cstk (slot : ClosureIx) (off : BitVec 6) (v : Word) : (s.writeCp slot off v).cstk = s.cstk := rfl
@[simp] theorem State.writeCp_printLog (slot : ClosureIx) (off : BitVec 6) (v : Word) : (s.writeCp slot off v).printLog = s.printLog := rfl
@[simp] theorem State.writeCp_hook (slot : ClosureIx) (off : BitVec 6) (v : Word) : (s.writeCp slot off v).hook = s.hook := rfl
@[simp] theorem State.writeCp_hookLog (slot : ClosureIx) (off : BitVec 6) (v : Word) : (s.writeCp slot off v).hookLog = s.hookLog := rfl
@[simp] theorem State.writeCp_requests (slot : ClosureIx) (off : BitVec 6) (v : Word) : (s.writeCp slot off v).requests = s.requests := rfl
@[simp] theorem State.writeCp_params (slot : ClosureIx) (off : BitVec 6) (v : Word) : (s.writeCp slot off v).params = s.params := rfl
@[simp] theorem State.writeCp_elections (slot : ClosureIx) (off : BitVec 6) (v : Word) : (s.writeCp slot off v).elections = s.elections := rfl

/-! ## raise -/

@[simp] theorem State.raise_stk (e : Halt) : (s.raise e).stk = s.stk := rfl
@[simp] theorem State.raise_cp (e : Halt) : (s.raise e).cp = s.cp := rfl
@[simp] theorem State.raise_pc (e : Halt) : (s.raise e).pc = s.pc := rfl
@[simp] theorem State.raise_fw (e : Halt) : (s.raise e).fw = s.fw := rfl
@[simp] theorem State.raise_cw (e : Halt) : (s.raise e).cw = s.cw := rfl
@[simp] theorem State.raise_aw (e : Halt) : (s.raise e).aw = s.aw := rfl
@[simp] theorem State.raise_gw (e : Halt) : (s.raise e).gw = s.gw := rfl
@[simp] theorem State.raise_tick (e : Halt) : (s.raise e).tick = s.tick := rfl
@[simp] theorem State.raise_limit (e : Halt) : (s.raise e).limit = s.limit := rfl
@[simp] theorem State.raise_status (e : Halt) : (s.raise e).status = .halted := rfl
@[simp] theorem State.raise_code (e : Halt) : (s.raise e).code = s.haltCode e := rfl
@[simp] theorem State.raise_rc (e : Halt) : (s.raise e).rc = s.rc := rfl
@[simp] theorem State.raise_perm (e : Halt) : (s.raise e).perm = s.perm := rfl
@[simp] theorem State.raise_pos (e : Halt) : (s.raise e).pos = s.pos := rfl
@[simp] theorem State.raise_cnt (e : Halt) : (s.raise e).cnt = s.cnt := rfl
@[simp] theorem State.raise_cstk (e : Halt) : (s.raise e).cstk = s.cstk := rfl
@[simp] theorem State.raise_printLog (e : Halt) : (s.raise e).printLog = s.printLog := rfl
@[simp] theorem State.raise_hook (e : Halt) : (s.raise e).hook = s.hook := rfl
@[simp] theorem State.raise_hookLog (e : Halt) : (s.raise e).hookLog = s.hookLog := rfl
@[simp] theorem State.raise_requests (e : Halt) : (s.raise e).requests = s.requests := rfl
@[simp] theorem State.raise_params (e : Halt) : (s.raise e).params = s.params := rfl
@[simp] theorem State.raise_elections (e : Halt) : (s.raise e).elections = s.elections := rfl

/-! ## advance -/

@[simp] theorem State.advance_stk : s.advance.stk = s.stk := rfl
@[simp] theorem State.advance_cp : s.advance.cp = s.cp := rfl
@[simp] theorem State.advance_pc : s.advance.pc = s.pc + 1 := rfl
@[simp] theorem State.advance_fw : s.advance.fw = s.fw := rfl
@[simp] theorem State.advance_cw : s.advance.cw = s.cw := rfl
@[simp] theorem State.advance_aw : s.advance.aw = s.aw := rfl
@[simp] theorem State.advance_gw : s.advance.gw = s.gw := rfl
@[simp] theorem State.advance_tick : s.advance.tick = s.tick := rfl
@[simp] theorem State.advance_limit : s.advance.limit = s.limit := rfl
@[simp] theorem State.advance_status : s.advance.status = s.status := rfl
@[simp] theorem State.advance_code : s.advance.code = s.code := rfl
@[simp] theorem State.advance_rc : s.advance.rc = s.rc := rfl
@[simp] theorem State.advance_perm : s.advance.perm = s.perm := rfl
@[simp] theorem State.advance_pos : s.advance.pos = s.pos := rfl
@[simp] theorem State.advance_cnt : s.advance.cnt = s.cnt := rfl
@[simp] theorem State.advance_cstk : s.advance.cstk = s.cstk := rfl
@[simp] theorem State.advance_printLog : s.advance.printLog = s.printLog := rfl
@[simp] theorem State.advance_hook : s.advance.hook = s.hook := rfl
@[simp] theorem State.advance_hookLog : s.advance.hookLog = s.hookLog := rfl
@[simp] theorem State.advance_requests : s.advance.requests = s.requests := rfl
@[simp] theorem State.advance_params : s.advance.params = s.params := rfl
@[simp] theorem State.advance_elections : s.advance.elections = s.elections := rfl

/-! ## setRc -/

@[simp] theorem State.setRc_stk (i : ClosureIx) (n : Word) : (s.setRc i n).stk = s.stk := rfl
@[simp] theorem State.setRc_cp (i : ClosureIx) (n : Word) : (s.setRc i n).cp = s.cp := rfl
@[simp] theorem State.setRc_pc (i : ClosureIx) (n : Word) : (s.setRc i n).pc = s.pc := rfl
@[simp] theorem State.setRc_fw (i : ClosureIx) (n : Word) : (s.setRc i n).fw = s.fw := rfl
@[simp] theorem State.setRc_cw (i : ClosureIx) (n : Word) : (s.setRc i n).cw = s.cw := rfl
@[simp] theorem State.setRc_aw (i : ClosureIx) (n : Word) : (s.setRc i n).aw = s.aw := rfl
@[simp] theorem State.setRc_gw (i : ClosureIx) (n : Word) : (s.setRc i n).gw = s.gw := rfl
@[simp] theorem State.setRc_tick (i : ClosureIx) (n : Word) : (s.setRc i n).tick = s.tick := rfl
@[simp] theorem State.setRc_limit (i : ClosureIx) (n : Word) : (s.setRc i n).limit = s.limit := rfl
@[simp] theorem State.setRc_status (i : ClosureIx) (n : Word) : (s.setRc i n).status = s.status := rfl
@[simp] theorem State.setRc_code (i : ClosureIx) (n : Word) : (s.setRc i n).code = s.code := rfl
@[simp] theorem State.setRc_rc (i : ClosureIx) (n : Word) : (s.setRc i n).rc = s.rc.set i.toNat n := rfl
@[simp] theorem State.setRc_perm (i : ClosureIx) (n : Word) : (s.setRc i n).perm = s.perm := rfl
@[simp] theorem State.setRc_pos (i : ClosureIx) (n : Word) : (s.setRc i n).pos = s.pos := rfl
@[simp] theorem State.setRc_cnt (i : ClosureIx) (n : Word) : (s.setRc i n).cnt = s.cnt := rfl
@[simp] theorem State.setRc_cstk (i : ClosureIx) (n : Word) : (s.setRc i n).cstk = s.cstk := rfl
@[simp] theorem State.setRc_printLog (i : ClosureIx) (n : Word) : (s.setRc i n).printLog = s.printLog := rfl
@[simp] theorem State.setRc_hook (i : ClosureIx) (n : Word) : (s.setRc i n).hook = s.hook := rfl
@[simp] theorem State.setRc_hookLog (i : ClosureIx) (n : Word) : (s.setRc i n).hookLog = s.hookLog := rfl
@[simp] theorem State.setRc_requests (i : ClosureIx) (n : Word) : (s.setRc i n).requests = s.requests := rfl
@[simp] theorem State.setRc_params (i : ClosureIx) (n : Word) : (s.setRc i n).params = s.params := rfl
@[simp] theorem State.setRc_elections (i : ClosureIx) (n : Word) : (s.setRc i n).elections = s.elections := rfl

/-! ## place -/

@[simp] theorem State.place_stk (j : Nat) (i : ClosureIx) : (s.place j i).stk = s.stk := rfl
@[simp] theorem State.place_cp (j : Nat) (i : ClosureIx) : (s.place j i).cp = s.cp := rfl
@[simp] theorem State.place_pc (j : Nat) (i : ClosureIx) : (s.place j i).pc = s.pc := rfl
@[simp] theorem State.place_fw (j : Nat) (i : ClosureIx) : (s.place j i).fw = s.fw := rfl
@[simp] theorem State.place_cw (j : Nat) (i : ClosureIx) : (s.place j i).cw = s.cw := rfl
@[simp] theorem State.place_aw (j : Nat) (i : ClosureIx) : (s.place j i).aw = s.aw := rfl
@[simp] theorem State.place_gw (j : Nat) (i : ClosureIx) : (s.place j i).gw = s.gw := rfl
@[simp] theorem State.place_tick (j : Nat) (i : ClosureIx) : (s.place j i).tick = s.tick := rfl
@[simp] theorem State.place_limit (j : Nat) (i : ClosureIx) : (s.place j i).limit = s.limit := rfl
@[simp] theorem State.place_status (j : Nat) (i : ClosureIx) : (s.place j i).status = s.status := rfl
@[simp] theorem State.place_code (j : Nat) (i : ClosureIx) : (s.place j i).code = s.code := rfl
@[simp] theorem State.place_rc (j : Nat) (i : ClosureIx) : (s.place j i).rc = s.rc := rfl
@[simp] theorem State.place_perm (j : Nat) (i : ClosureIx) : (s.place j i).perm = s.perm.setIfInBounds j i := rfl
@[simp] theorem State.place_pos (j : Nat) (i : ClosureIx) : (s.place j i).pos = s.pos.setIfInBounds (i.toNat - 1) j := rfl
@[simp] theorem State.place_cnt (j : Nat) (i : ClosureIx) : (s.place j i).cnt = s.cnt := rfl
@[simp] theorem State.place_cstk (j : Nat) (i : ClosureIx) : (s.place j i).cstk = s.cstk := rfl
@[simp] theorem State.place_printLog (j : Nat) (i : ClosureIx) : (s.place j i).printLog = s.printLog := rfl
@[simp] theorem State.place_hook (j : Nat) (i : ClosureIx) : (s.place j i).hook = s.hook := rfl
@[simp] theorem State.place_hookLog (j : Nat) (i : ClosureIx) : (s.place j i).hookLog = s.hookLog := rfl
@[simp] theorem State.place_requests (j : Nat) (i : ClosureIx) : (s.place j i).requests = s.requests := rfl
@[simp] theorem State.place_params (j : Nat) (i : ClosureIx) : (s.place j i).params = s.params := rfl
@[simp] theorem State.place_elections (j : Nat) (i : ClosureIx) : (s.place j i).elections = s.elections := rfl

/-! ## setCnt -/

@[simp] theorem State.setCnt_stk (n : Nat) : (s.setCnt n).stk = s.stk := rfl
@[simp] theorem State.setCnt_cp (n : Nat) : (s.setCnt n).cp = s.cp := rfl
@[simp] theorem State.setCnt_pc (n : Nat) : (s.setCnt n).pc = s.pc := rfl
@[simp] theorem State.setCnt_fw (n : Nat) : (s.setCnt n).fw = s.fw := rfl
@[simp] theorem State.setCnt_cw (n : Nat) : (s.setCnt n).cw = s.cw := rfl
@[simp] theorem State.setCnt_aw (n : Nat) : (s.setCnt n).aw = s.aw := rfl
@[simp] theorem State.setCnt_gw (n : Nat) : (s.setCnt n).gw = s.gw := rfl
@[simp] theorem State.setCnt_tick (n : Nat) : (s.setCnt n).tick = s.tick := rfl
@[simp] theorem State.setCnt_limit (n : Nat) : (s.setCnt n).limit = s.limit := rfl
@[simp] theorem State.setCnt_status (n : Nat) : (s.setCnt n).status = s.status := rfl
@[simp] theorem State.setCnt_code (n : Nat) : (s.setCnt n).code = s.code := rfl
@[simp] theorem State.setCnt_rc (n : Nat) : (s.setCnt n).rc = s.rc := rfl
@[simp] theorem State.setCnt_perm (n : Nat) : (s.setCnt n).perm = s.perm := rfl
@[simp] theorem State.setCnt_pos (n : Nat) : (s.setCnt n).pos = s.pos := rfl
@[simp] theorem State.setCnt_cnt (n : Nat) : (s.setCnt n).cnt = n := rfl
@[simp] theorem State.setCnt_cstk (n : Nat) : (s.setCnt n).cstk = s.cstk := rfl
@[simp] theorem State.setCnt_printLog (n : Nat) : (s.setCnt n).printLog = s.printLog := rfl
@[simp] theorem State.setCnt_hook (n : Nat) : (s.setCnt n).hook = s.hook := rfl
@[simp] theorem State.setCnt_hookLog (n : Nat) : (s.setCnt n).hookLog = s.hookLog := rfl
@[simp] theorem State.setCnt_requests (n : Nat) : (s.setCnt n).requests = s.requests := rfl
@[simp] theorem State.setCnt_params (n : Nat) : (s.setCnt n).params = s.params := rfl
@[simp] theorem State.setCnt_elections (n : Nat) : (s.setCnt n).elections = s.elections := rfl

/-! ## setAw -/

@[simp] theorem State.setAw_stk (i : ClosureIx) : (s.setAw i).stk = s.stk := rfl
@[simp] theorem State.setAw_cp (i : ClosureIx) : (s.setAw i).cp = s.cp := rfl
@[simp] theorem State.setAw_pc (i : ClosureIx) : (s.setAw i).pc = s.pc := rfl
@[simp] theorem State.setAw_fw (i : ClosureIx) : (s.setAw i).fw = s.fw := rfl
@[simp] theorem State.setAw_cw (i : ClosureIx) : (s.setAw i).cw = s.cw := rfl
@[simp] theorem State.setAw_aw (i : ClosureIx) : (s.setAw i).aw = i := rfl
@[simp] theorem State.setAw_gw (i : ClosureIx) : (s.setAw i).gw = s.gw := rfl
@[simp] theorem State.setAw_tick (i : ClosureIx) : (s.setAw i).tick = s.tick := rfl
@[simp] theorem State.setAw_limit (i : ClosureIx) : (s.setAw i).limit = s.limit := rfl
@[simp] theorem State.setAw_status (i : ClosureIx) : (s.setAw i).status = s.status := rfl
@[simp] theorem State.setAw_code (i : ClosureIx) : (s.setAw i).code = s.code := rfl
@[simp] theorem State.setAw_rc (i : ClosureIx) : (s.setAw i).rc = s.rc := rfl
@[simp] theorem State.setAw_perm (i : ClosureIx) : (s.setAw i).perm = s.perm := rfl
@[simp] theorem State.setAw_pos (i : ClosureIx) : (s.setAw i).pos = s.pos := rfl
@[simp] theorem State.setAw_cnt (i : ClosureIx) : (s.setAw i).cnt = s.cnt := rfl
@[simp] theorem State.setAw_cstk (i : ClosureIx) : (s.setAw i).cstk = s.cstk := rfl
@[simp] theorem State.setAw_printLog (i : ClosureIx) : (s.setAw i).printLog = s.printLog := rfl
@[simp] theorem State.setAw_hook (i : ClosureIx) : (s.setAw i).hook = s.hook := rfl
@[simp] theorem State.setAw_hookLog (i : ClosureIx) : (s.setAw i).hookLog = s.hookLog := rfl
@[simp] theorem State.setAw_requests (i : ClosureIx) : (s.setAw i).requests = s.requests := rfl
@[simp] theorem State.setAw_params (i : ClosureIx) : (s.setAw i).params = s.params := rfl
@[simp] theorem State.setAw_elections (i : ClosureIx) : (s.setAw i).elections = s.elections := rfl

/-! ## setFw -/

@[simp] theorem State.setFw_stk (v : Word) : (s.setFw v).stk = s.stk := rfl
@[simp] theorem State.setFw_cp (v : Word) : (s.setFw v).cp = s.cp := rfl
@[simp] theorem State.setFw_pc (v : Word) : (s.setFw v).pc = s.pc := rfl
@[simp] theorem State.setFw_fw (v : Word) : (s.setFw v).fw = v := rfl
@[simp] theorem State.setFw_cw (v : Word) : (s.setFw v).cw = s.cw := rfl
@[simp] theorem State.setFw_aw (v : Word) : (s.setFw v).aw = s.aw := rfl
@[simp] theorem State.setFw_gw (v : Word) : (s.setFw v).gw = s.gw := rfl
@[simp] theorem State.setFw_tick (v : Word) : (s.setFw v).tick = s.tick := rfl
@[simp] theorem State.setFw_limit (v : Word) : (s.setFw v).limit = s.limit := rfl
@[simp] theorem State.setFw_status (v : Word) : (s.setFw v).status = s.status := rfl
@[simp] theorem State.setFw_code (v : Word) : (s.setFw v).code = s.code := rfl
@[simp] theorem State.setFw_rc (v : Word) : (s.setFw v).rc = s.rc := rfl
@[simp] theorem State.setFw_perm (v : Word) : (s.setFw v).perm = s.perm := rfl
@[simp] theorem State.setFw_pos (v : Word) : (s.setFw v).pos = s.pos := rfl
@[simp] theorem State.setFw_cnt (v : Word) : (s.setFw v).cnt = s.cnt := rfl
@[simp] theorem State.setFw_cstk (v : Word) : (s.setFw v).cstk = s.cstk := rfl
@[simp] theorem State.setFw_printLog (v : Word) : (s.setFw v).printLog = s.printLog := rfl
@[simp] theorem State.setFw_hook (v : Word) : (s.setFw v).hook = s.hook := rfl
@[simp] theorem State.setFw_hookLog (v : Word) : (s.setFw v).hookLog = s.hookLog := rfl
@[simp] theorem State.setFw_requests (v : Word) : (s.setFw v).requests = s.requests := rfl
@[simp] theorem State.setFw_params (v : Word) : (s.setFw v).params = s.params := rfl
@[simp] theorem State.setFw_elections (v : Word) : (s.setFw v).elections = s.elections := rfl

/-! ## printWord -/

@[simp] theorem State.printWord_stk (v : Word) : (s.printWord v).stk = s.stk := rfl
@[simp] theorem State.printWord_cp (v : Word) : (s.printWord v).cp = s.cp := rfl
@[simp] theorem State.printWord_pc (v : Word) : (s.printWord v).pc = s.pc := rfl
@[simp] theorem State.printWord_fw (v : Word) : (s.printWord v).fw = s.fw := rfl
@[simp] theorem State.printWord_cw (v : Word) : (s.printWord v).cw = s.cw := rfl
@[simp] theorem State.printWord_aw (v : Word) : (s.printWord v).aw = s.aw := rfl
@[simp] theorem State.printWord_gw (v : Word) : (s.printWord v).gw = s.gw := rfl
@[simp] theorem State.printWord_tick (v : Word) : (s.printWord v).tick = s.tick := rfl
@[simp] theorem State.printWord_limit (v : Word) : (s.printWord v).limit = s.limit := rfl
@[simp] theorem State.printWord_status (v : Word) : (s.printWord v).status = s.status := rfl
@[simp] theorem State.printWord_code (v : Word) : (s.printWord v).code = s.code := rfl
@[simp] theorem State.printWord_rc (v : Word) : (s.printWord v).rc = s.rc := rfl
@[simp] theorem State.printWord_perm (v : Word) : (s.printWord v).perm = s.perm := rfl
@[simp] theorem State.printWord_pos (v : Word) : (s.printWord v).pos = s.pos := rfl
@[simp] theorem State.printWord_cnt (v : Word) : (s.printWord v).cnt = s.cnt := rfl
@[simp] theorem State.printWord_cstk (v : Word) : (s.printWord v).cstk = s.cstk := rfl
@[simp] theorem State.printWord_printLog (v : Word) : (s.printWord v).printLog = s.printLog ++ [v] := rfl
@[simp] theorem State.printWord_hook (v : Word) : (s.printWord v).hook = s.hook := rfl
@[simp] theorem State.printWord_hookLog (v : Word) : (s.printWord v).hookLog = s.hookLog := rfl
@[simp] theorem State.printWord_requests (v : Word) : (s.printWord v).requests = s.requests := rfl
@[simp] theorem State.printWord_params (v : Word) : (s.printWord v).params = s.params := rfl
@[simp] theorem State.printWord_elections (v : Word) : (s.printWord v).elections = s.elections := rfl

/-! ## tickUp -/

@[simp] theorem State.tickUp_stk : s.tickUp.stk = s.stk := rfl
@[simp] theorem State.tickUp_cp : s.tickUp.cp = s.cp := rfl
@[simp] theorem State.tickUp_pc : s.tickUp.pc = s.pc := rfl
@[simp] theorem State.tickUp_fw : s.tickUp.fw = s.fw := rfl
@[simp] theorem State.tickUp_cw : s.tickUp.cw = s.cw := rfl
@[simp] theorem State.tickUp_aw : s.tickUp.aw = s.aw := rfl
@[simp] theorem State.tickUp_gw : s.tickUp.gw = s.gw := rfl
@[simp] theorem State.tickUp_tick : s.tickUp.tick = s.tick + 1 := rfl
@[simp] theorem State.tickUp_limit : s.tickUp.limit = s.limit := rfl
@[simp] theorem State.tickUp_status : s.tickUp.status = s.status := rfl
@[simp] theorem State.tickUp_code : s.tickUp.code = s.code := rfl
@[simp] theorem State.tickUp_rc : s.tickUp.rc = s.rc := rfl
@[simp] theorem State.tickUp_perm : s.tickUp.perm = s.perm := rfl
@[simp] theorem State.tickUp_pos : s.tickUp.pos = s.pos := rfl
@[simp] theorem State.tickUp_cnt : s.tickUp.cnt = s.cnt := rfl
@[simp] theorem State.tickUp_cstk : s.tickUp.cstk = s.cstk := rfl
@[simp] theorem State.tickUp_printLog : s.tickUp.printLog = s.printLog := rfl
@[simp] theorem State.tickUp_hook : s.tickUp.hook = s.hook := rfl
@[simp] theorem State.tickUp_hookLog : s.tickUp.hookLog = s.hookLog := rfl
@[simp] theorem State.tickUp_requests : s.tickUp.requests = s.requests := rfl
@[simp] theorem State.tickUp_params : s.tickUp.params = s.params := rfl
@[simp] theorem State.tickUp_elections : s.tickUp.elections = s.elections := rfl

/-! ## writeLoc: only the two memories -/

@[simp] theorem State.writeLoc_pc (l : Loc) (v : Word) : (s.writeLoc l v).pc = s.pc := by cases l <;> rfl
@[simp] theorem State.writeLoc_fw (l : Loc) (v : Word) : (s.writeLoc l v).fw = s.fw := by cases l <;> rfl
@[simp] theorem State.writeLoc_cw (l : Loc) (v : Word) : (s.writeLoc l v).cw = s.cw := by cases l <;> rfl
@[simp] theorem State.writeLoc_aw (l : Loc) (v : Word) : (s.writeLoc l v).aw = s.aw := by cases l <;> rfl
@[simp] theorem State.writeLoc_gw (l : Loc) (v : Word) : (s.writeLoc l v).gw = s.gw := by cases l <;> rfl
@[simp] theorem State.writeLoc_tick (l : Loc) (v : Word) : (s.writeLoc l v).tick = s.tick := by cases l <;> rfl
@[simp] theorem State.writeLoc_limit (l : Loc) (v : Word) : (s.writeLoc l v).limit = s.limit := by cases l <;> rfl
@[simp] theorem State.writeLoc_status (l : Loc) (v : Word) : (s.writeLoc l v).status = s.status := by cases l <;> rfl
@[simp] theorem State.writeLoc_code (l : Loc) (v : Word) : (s.writeLoc l v).code = s.code := by cases l <;> rfl
@[simp] theorem State.writeLoc_rc (l : Loc) (v : Word) : (s.writeLoc l v).rc = s.rc := by cases l <;> rfl
@[simp] theorem State.writeLoc_perm (l : Loc) (v : Word) : (s.writeLoc l v).perm = s.perm := by cases l <;> rfl
@[simp] theorem State.writeLoc_pos (l : Loc) (v : Word) : (s.writeLoc l v).pos = s.pos := by cases l <;> rfl
@[simp] theorem State.writeLoc_cnt (l : Loc) (v : Word) : (s.writeLoc l v).cnt = s.cnt := by cases l <;> rfl
@[simp] theorem State.writeLoc_cstk (l : Loc) (v : Word) : (s.writeLoc l v).cstk = s.cstk := by cases l <;> rfl
@[simp] theorem State.writeLoc_printLog (l : Loc) (v : Word) : (s.writeLoc l v).printLog = s.printLog := by cases l <;> rfl
@[simp] theorem State.writeLoc_hook (l : Loc) (v : Word) : (s.writeLoc l v).hook = s.hook := by cases l <;> rfl
@[simp] theorem State.writeLoc_hookLog (l : Loc) (v : Word) : (s.writeLoc l v).hookLog = s.hookLog := by cases l <;> rfl
@[simp] theorem State.writeLoc_requests (l : Loc) (v : Word) : (s.writeLoc l v).requests = s.requests := by cases l <;> rfl
@[simp] theorem State.writeLoc_params (l : Loc) (v : Word) : (s.writeLoc l v).params = s.params := by cases l <;> rfl
@[simp] theorem State.writeLoc_elections (l : Loc) (v : Word) : (s.writeLoc l v).elections = s.elections := by cases l <;> rfl

@[simp] theorem State.writeLoc_stk_stk (a : Nat) (v : Word) : (s.writeLoc (.stk a) v).stk = Memory.write s.stk a v := rfl
@[simp] theorem State.writeLoc_stk_cp (a : Nat) (v : Word) : (s.writeLoc (.stk a) v).cp = s.cp := rfl
@[simp] theorem State.writeLoc_cp_stk (i : ClosureIx) (k : BitVec 6) (v : Word) : (s.writeLoc (.cp i k) v).stk = s.stk := rfl
@[simp] theorem State.writeLoc_cp_cp (i : ClosureIx) (k : BitVec 6) (v : Word) :
    (s.writeLoc (.cp i k) v).cp = Memory.write s.cp (cpIndex i k) v := rfl

/-! ## afterHook: only the hook port -/

@[simp] theorem State.afterHook_stk : s.afterHook.stk = s.stk := by unfold State.afterHook; split <;> rfl
@[simp] theorem State.afterHook_cp : s.afterHook.cp = s.cp := by unfold State.afterHook; split <;> rfl
@[simp] theorem State.afterHook_pc : s.afterHook.pc = s.pc := by unfold State.afterHook; split <;> rfl
@[simp] theorem State.afterHook_fw : s.afterHook.fw = s.fw := by unfold State.afterHook; split <;> rfl
@[simp] theorem State.afterHook_cw : s.afterHook.cw = s.cw := by unfold State.afterHook; split <;> rfl
@[simp] theorem State.afterHook_aw : s.afterHook.aw = s.aw := by unfold State.afterHook; split <;> rfl
@[simp] theorem State.afterHook_gw : s.afterHook.gw = s.gw := by unfold State.afterHook; split <;> rfl
@[simp] theorem State.afterHook_tick : s.afterHook.tick = s.tick := by unfold State.afterHook; split <;> rfl
@[simp] theorem State.afterHook_limit : s.afterHook.limit = s.limit := by unfold State.afterHook; split <;> rfl
@[simp] theorem State.afterHook_status : s.afterHook.status = s.status := by unfold State.afterHook; split <;> rfl
@[simp] theorem State.afterHook_code : s.afterHook.code = s.code := by unfold State.afterHook; split <;> rfl
@[simp] theorem State.afterHook_rc : s.afterHook.rc = s.rc := by unfold State.afterHook; split <;> rfl
@[simp] theorem State.afterHook_perm : s.afterHook.perm = s.perm := by unfold State.afterHook; split <;> rfl
@[simp] theorem State.afterHook_pos : s.afterHook.pos = s.pos := by unfold State.afterHook; split <;> rfl
@[simp] theorem State.afterHook_cnt : s.afterHook.cnt = s.cnt := by unfold State.afterHook; split <;> rfl
@[simp] theorem State.afterHook_cstk : s.afterHook.cstk = s.cstk := by unfold State.afterHook; split <;> rfl
@[simp] theorem State.afterHook_printLog : s.afterHook.printLog = s.printLog := by unfold State.afterHook; split <;> rfl
@[simp] theorem State.afterHook_requests : s.afterHook.requests = s.requests := by unfold State.afterHook; split <;> rfl
@[simp] theorem State.afterHook_params : s.afterHook.params = s.params := by unfold State.afterHook; split <;> rfl
@[simp] theorem State.afterHook_elections : s.afterHook.elections = s.elections := by unfold State.afterHook; split <;> rfl

/-! ## elect: only the order of the free indexes -/

@[simp] theorem State.elect_stk : s.elect.stk = s.stk := by unfold State.elect; split <;> rfl
@[simp] theorem State.elect_cp : s.elect.cp = s.cp := by unfold State.elect; split <;> rfl
@[simp] theorem State.elect_pc : s.elect.pc = s.pc := by unfold State.elect; split <;> rfl
@[simp] theorem State.elect_fw : s.elect.fw = s.fw := by unfold State.elect; split <;> rfl
@[simp] theorem State.elect_cw : s.elect.cw = s.cw := by unfold State.elect; split <;> rfl
@[simp] theorem State.elect_aw : s.elect.aw = s.aw := by unfold State.elect; split <;> rfl
@[simp] theorem State.elect_gw : s.elect.gw = s.gw := by unfold State.elect; split <;> rfl
@[simp] theorem State.elect_tick : s.elect.tick = s.tick := by unfold State.elect; split <;> rfl
@[simp] theorem State.elect_limit : s.elect.limit = s.limit := by unfold State.elect; split <;> rfl
@[simp] theorem State.elect_status : s.elect.status = s.status := by unfold State.elect; split <;> rfl
@[simp] theorem State.elect_code : s.elect.code = s.code := by unfold State.elect; split <;> rfl
@[simp] theorem State.elect_rc : s.elect.rc = s.rc := by unfold State.elect; split <;> rfl
@[simp] theorem State.elect_cnt : s.elect.cnt = s.cnt := by unfold State.elect; split <;> rfl
@[simp] theorem State.elect_cstk : s.elect.cstk = s.cstk := by unfold State.elect; split <;> rfl
@[simp] theorem State.elect_printLog : s.elect.printLog = s.printLog := by unfold State.elect; split <;> rfl
@[simp] theorem State.elect_hook : s.elect.hook = s.hook := by unfold State.elect; split <;> rfl
@[simp] theorem State.elect_hookLog : s.elect.hookLog = s.hookLog := by unfold State.elect; split <;> rfl
@[simp] theorem State.elect_requests : s.elect.requests = s.requests := by unfold State.elect; split <;> rfl
@[simp] theorem State.elect_params : s.elect.params = s.params := by unfold State.elect; split <;> rfl

/-! ## freeIndex: only PERM, POS and CNT -/

@[simp] theorem State.freeIndex_stk (i : ClosureIx) : (s.freeIndex i).stk = s.stk := rfl
@[simp] theorem State.freeIndex_cp (i : ClosureIx) : (s.freeIndex i).cp = s.cp := rfl
@[simp] theorem State.freeIndex_pc (i : ClosureIx) : (s.freeIndex i).pc = s.pc := rfl
@[simp] theorem State.freeIndex_fw (i : ClosureIx) : (s.freeIndex i).fw = s.fw := rfl
@[simp] theorem State.freeIndex_cw (i : ClosureIx) : (s.freeIndex i).cw = s.cw := rfl
@[simp] theorem State.freeIndex_aw (i : ClosureIx) : (s.freeIndex i).aw = s.aw := rfl
@[simp] theorem State.freeIndex_gw (i : ClosureIx) : (s.freeIndex i).gw = s.gw := rfl
@[simp] theorem State.freeIndex_tick (i : ClosureIx) : (s.freeIndex i).tick = s.tick := rfl
@[simp] theorem State.freeIndex_limit (i : ClosureIx) : (s.freeIndex i).limit = s.limit := rfl
@[simp] theorem State.freeIndex_status (i : ClosureIx) : (s.freeIndex i).status = s.status := rfl
@[simp] theorem State.freeIndex_code (i : ClosureIx) : (s.freeIndex i).code = s.code := rfl
@[simp] theorem State.freeIndex_rc (i : ClosureIx) : (s.freeIndex i).rc = s.rc := rfl
@[simp] theorem State.freeIndex_cstk (i : ClosureIx) : (s.freeIndex i).cstk = s.cstk := rfl
@[simp] theorem State.freeIndex_printLog (i : ClosureIx) : (s.freeIndex i).printLog = s.printLog := rfl
@[simp] theorem State.freeIndex_hook (i : ClosureIx) : (s.freeIndex i).hook = s.hook := rfl
@[simp] theorem State.freeIndex_hookLog (i : ClosureIx) : (s.freeIndex i).hookLog = s.hookLog := rfl
@[simp] theorem State.freeIndex_requests (i : ClosureIx) : (s.freeIndex i).requests = s.requests := rfl
@[simp] theorem State.freeIndex_params (i : ClosureIx) : (s.freeIndex i).params = s.params := rfl
@[simp] theorem State.freeIndex_elections (i : ClosureIx) : (s.freeIndex i).elections = s.elections := rfl
@[simp] theorem State.freeIndex_cnt (i : ClosureIx) : (s.freeIndex i).cnt = s.cnt - 1 := rfl

/-! ## popRecord -/

@[simp] theorem State.popRecord_stk (f : Frame) (rest : List Frame) : (s.popRecord f rest).stk = s.stk := by cases rest <;> rfl
@[simp] theorem State.popRecord_cp (f : Frame) (rest : List Frame) : (s.popRecord f rest).cp = s.cp := by cases rest <;> rfl
@[simp] theorem State.popRecord_aw (f : Frame) (rest : List Frame) : (s.popRecord f rest).aw = s.aw := by cases rest <;> rfl
@[simp] theorem State.popRecord_gw (f : Frame) (rest : List Frame) : (s.popRecord f rest).gw = s.gw := by cases rest <;> rfl
@[simp] theorem State.popRecord_tick (f : Frame) (rest : List Frame) : (s.popRecord f rest).tick = s.tick := by cases rest <;> rfl
@[simp] theorem State.popRecord_limit (f : Frame) (rest : List Frame) : (s.popRecord f rest).limit = s.limit := by cases rest <;> rfl
@[simp] theorem State.popRecord_rc (f : Frame) (rest : List Frame) : (s.popRecord f rest).rc = s.rc := by cases rest <;> rfl
@[simp] theorem State.popRecord_perm (f : Frame) (rest : List Frame) : (s.popRecord f rest).perm = s.perm := by cases rest <;> rfl
@[simp] theorem State.popRecord_pos (f : Frame) (rest : List Frame) : (s.popRecord f rest).pos = s.pos := by cases rest <;> rfl
@[simp] theorem State.popRecord_cnt (f : Frame) (rest : List Frame) : (s.popRecord f rest).cnt = s.cnt := by cases rest <;> rfl
@[simp] theorem State.popRecord_printLog (f : Frame) (rest : List Frame) : (s.popRecord f rest).printLog = s.printLog := by cases rest <;> rfl
@[simp] theorem State.popRecord_hook (f : Frame) (rest : List Frame) : (s.popRecord f rest).hook = s.hook := by cases rest <;> rfl
@[simp] theorem State.popRecord_hookLog (f : Frame) (rest : List Frame) : (s.popRecord f rest).hookLog = s.hookLog := by cases rest <;> rfl
@[simp] theorem State.popRecord_requests (f : Frame) (rest : List Frame) : (s.popRecord f rest).requests = s.requests := by cases rest <;> rfl
@[simp] theorem State.popRecord_params (f : Frame) (rest : List Frame) : (s.popRecord f rest).params = s.params := by cases rest <;> rfl
@[simp] theorem State.popRecord_elections (f : Frame) (rest : List Frame) : (s.popRecord f rest).elections = s.elections := by cases rest <;> rfl
@[simp] theorem State.popRecord_fw (f : Frame) (rest : List Frame) : (s.popRecord f rest).fw = f.fw := by cases rest <;> rfl
@[simp] theorem State.popRecord_cw (f : Frame) (rest : List Frame) : (s.popRecord f rest).cw = f.cw := by cases rest <;> rfl
@[simp] theorem State.popRecord_cstk (f : Frame) (rest : List Frame) : (s.popRecord f rest).cstk = rest := by cases rest <;> rfl

end Sys2Proof.Machine
end

