-- ==== Sys2Proof/Laws/Ops.lean ====
section
/-! SUPPORT. The Addressing Engine and the storage behind it: what `Loc` answers, read after write, the canonical form. -/

namespace Sys2Proof.Machine

/-! ## The bounds check -/

theorem stackIndex_eq_some {a : Int} {n : Nat} :
    stackIndex a = some n ↔ (0 ≤ a ∧ a ≤ 65535) ∧ a.toNat = n := by
  unfold stackIndex
  split <;> simp_all

theorem stackIndex_eq_none {a : Int} : stackIndex a = none ↔ ¬ (0 ≤ a ∧ a ≤ 65535) := by
  unfold stackIndex
  split <;> simp_all

theorem stackIndex_lt {a : Int} {n : Nat} (h : stackIndex a = some n) : n < 65536 := by
  obtain ⟨⟨h0, h1⟩, rfl⟩ := stackIndex_eq_some.1 h
  omega

/-! ## Loc -/

/-- What `Loc` can answer. -/
theorem State.loc_cases (s : State) (r : RegRef) :
    (r.win = .frame ∧ s.loc r = (stackIndex (s.fw.toInt + (r.off.toNat : Int))).map .stk) ∨
    (r.win = .closure ∧ s.loc r = some (.cp s.cw r.off)) ∨
    (r.win = .auxiliary ∧ s.loc r = some (.cp s.aw r.off)) ∨
    (r.win = .global ∧ s.loc r = (stackIndex ((s.gw.toNat : Int) + (r.off.toNat : Int))).map .stk) := by
  unfold State.loc
  cases h : r.win <;> simp

/-- `Loc` reads the four windows and nothing else. -/
theorem State.loc_congr {s t : State} (h : SameWindows s t) (r : RegRef) : t.loc r = s.loc r := by
  obtain ⟨h1, h2, h3, h4⟩ := h
  unfold State.loc
  rw [h1, h2, h3, h4]

theorem State.loc_valid {s : State} {r : RegRef} {l : Loc} (h : s.loc r = some l) : l.valid := by
  rcases s.loc_cases r with ⟨-, e⟩ | ⟨-, e⟩ | ⟨-, e⟩ | ⟨-, e⟩ <;> rw [e] at h
  · obtain ⟨n, hn, rfl⟩ := Option.map_eq_some_iff.1 h
    exact stackIndex_lt hn
  · cases h
    trivial
  · cases h
    trivial
  · obtain ⟨n, hn, rfl⟩ := Option.map_eq_some_iff.1 h
    exact stackIndex_lt hn

@[simp] theorem State.loc_writeLoc (s : State) (l : Loc) (v : Word) (r : RegRef) :
    (s.writeLoc l v).loc r = s.loc r := State.loc_congr ⟨by simp, by simp, by simp, by simp⟩ r

@[simp] theorem State.loc_advance (s : State) (r : RegRef) : s.advance.loc r = s.loc r := rfl

@[simp] theorem State.loc_raise (s : State) (e : Halt) (r : RegRef) : (s.raise e).loc r = s.loc r := rfl

@[simp] theorem State.loc_tickUp (s : State) (r : RegRef) : s.tickUp.loc r = s.loc r := rfl

/-! ## CP's indexes -/

theorem cpIndex_lt (slot : ClosureIx) (off : BitVec 6) : cpIndex slot off < 16384 := by
  unfold cpIndex
  omega

theorem cpIndex_inj {i j : ClosureIx} {k n : BitVec 6} (h : cpIndex i k = cpIndex j n) : i = j ∧ k = n := by
  unfold cpIndex at h
  constructor
  · apply BitVec.eq_of_toNat_eq
    omega
  · apply BitVec.eq_of_toNat_eq
    omega

/-! ## Read after write -/

theorem State.readLoc_congr {s t : State} (h1 : t.stk = s.stk) (h2 : t.cp = s.cp) : SameMemory s t := by
  intro l
  cases l <;> simp [State.readLoc, State.readStk, State.readCp, h1, h2]

/-- A location read after a write: the word written, or what it held. -/
theorem State.readLoc_writeLoc (s : State) (l m : Loc) (v : Word) :
    (s.writeLoc l v).readLoc m = if m = l then v else s.readLoc m := by
  cases l with
  | stk a =>
    cases m with
    | stk b =>
      by_cases h : b = a <;> simp [State.readLoc, State.readStk, Memory.lookup_write, h]
    | cp i k => rfl
  | cp i k =>
    cases m with
    | stk b => rfl
    | cp j n =>
      by_cases h : cpIndex j n = cpIndex i k
      · obtain ⟨rfl, rfl⟩ := cpIndex_inj h
        simp [State.readLoc, State.readCp]
      · have hne : ¬ (j = i ∧ n = k) := by
          rintro ⟨rfl, rfl⟩
          exact h rfl
        simp [State.readLoc, State.readCp, Memory.lookup_write, h, hne]

@[simp] theorem State.readLoc_writeLoc_same (s : State) (l : Loc) (v : Word) :
    (s.writeLoc l v).readLoc l = v := by simp [State.readLoc_writeLoc]

theorem State.readLoc_writeLoc_other (s : State) {l m : Loc} (v : Word) (h : m ≠ l) :
    (s.writeLoc l v).readLoc m = s.readLoc m := by simp [State.readLoc_writeLoc, h]

@[simp] theorem State.readLoc_advance (s : State) (l : Loc) : s.advance.readLoc l = s.readLoc l := by
  cases l <;> rfl

@[simp] theorem State.readLoc_raise (s : State) (e : Halt) (l : Loc) : (s.raise e).readLoc l = s.readLoc l := by
  cases l <;> rfl

@[simp] theorem State.readLoc_tickUp (s : State) (l : Loc) : s.tickUp.readLoc l = s.readLoc l := by
  cases l <;> rfl

theorem State.readLoc_stk (s : State) (a : Nat) : s.readLoc (.stk a) = s.readStk a := rfl

theorem State.writeLoc_eq_writeStk (s : State) (a : Nat) (v : Word) : s.writeStk a v = s.writeLoc (.stk a) v := rfl

/-! ## The canonical form is kept -/

theorem State.MemoryOk_writeLoc {s : State} {l : Loc} {v : Word} (h : s.MemoryOk) (hl : l.valid) :
    (s.writeLoc l v).MemoryOk := by
  cases l with
  | stk a => exact ⟨Memory.wf_write h.1 hl, h.2⟩
  | cp i k => exact ⟨h.1, Memory.wf_write h.2 (cpIndex_lt i k)⟩

theorem State.MemoryOk_congr {s t : State} (h1 : t.stk = s.stk) (h2 : t.cp = s.cp) (h : s.MemoryOk) : t.MemoryOk := by
  unfold State.MemoryOk
  rw [h1, h2]
  exact h

/-! ## Calls -/

/-- Everything a call can do: the CallDepthExceeded halt, or push, move the frame and enter. -/
theorem State.call_cases (s : State) (entry : Half) (clo : ClosureIx) (size : Byte) :
    (s.callDepthReached = true ∧ s.call entry clo size = s.raise .callDepthExceeded) ∨
    (s.callDepthReached = false ∧ s.call entry clo size = { s with
      cstk := ⟨s.pc, s.fw, s.cw⟩ :: s.cstk
      fw := s.fw + size.setWidth 32
      cw := clo
      pc := entry.setWidth 17 }) := by
  unfold State.call
  cases h : s.callDepthReached
  · exact .inr ⟨rfl, rfl⟩
  · exact .inl ⟨rfl, rfl⟩

theorem State.callDepthReached_eq_false {s : State} :
    s.callDepthReached = false ↔ ∀ d, s.params.callDepthMax = some d → s.cstk.length < d := by
  unfold State.callDepthReached
  cases s.params.callDepthMax <;> simp

/-! ## The HALT table -/

/-- The code of a cause depends on the parameters alone. -/
theorem State.haltCode_congr {s t : State} (h : t.params = s.params) (e : Halt) : t.haltCode e = s.haltCode e := by
  unfold State.haltCode
  rw [h]

@[simp] theorem State.haltCode_hookHalt (s : State) (h : Word) : s.haltCode (.hookHalt h) = h := rfl

/-- The two checks on a HALT table, as propositions. -/
theorem haltCodesWellFormed_iff {t : HaltCodes} :
    haltCodesWellFormed t = true ↔ (∀ c ∈ t.toList, c.toInt < 0) ∧ t.toList.Nodup := by
  simp [haltCodesWellFormed, List.all_eq_true]

/-- Every code but HookHalt's is an entry of the table. -/
theorem Halt.code_mem (t : HaltCodes) {e : Halt} (h : ∀ v, e ≠ .hookHalt v) : e.code t ∈ t.toList := by
  cases e with
  | hookHalt v => exact absurd rfl (h v)
  | _ => simp [HaltCodes.toList, Halt.code]

end Sys2Proof.Machine
end

