-- ==== Sys2Proof/Laws/Allocator.lean ====
section
/-! SUPPORT. The allocator: reads after the updates of PERM, POS and RC, what each operation can do, and that each keeps
the partition invariant. -/

namespace Sys2Proof.Machine

/-! ## Reads after updates -/

theorem State.rcOf_setRc (s : State) (i j : ClosureIx) (n : Word) :
    (s.setRc i n).rcOf j = if j = i then n else s.rcOf j := by
  unfold State.rcOf State.setRc
  by_cases h : j = i
  · subst h
    simp
  · have hne : i.toNat ≠ j.toNat := fun e => h (BitVec.eq_of_toNat_eq e.symm)
    simp [h, hne]

@[simp] theorem State.rcOf_setCnt (s : State) (n : Nat) (i : ClosureIx) : (s.setCnt n).rcOf i = s.rcOf i := rfl
@[simp] theorem State.rcOf_place (s : State) (j : Nat) (i k : ClosureIx) : (s.place j i).rcOf k = s.rcOf k := rfl
@[simp] theorem State.rcOf_freeIndex (s : State) (i k : ClosureIx) : (s.freeIndex i).rcOf k = s.rcOf k := rfl
@[simp] theorem State.rcOf_elect (s : State) (k : ClosureIx) : s.elect.rcOf k = s.rcOf k := by
  unfold State.rcOf
  simp
@[simp] theorem State.permAt_setRc (s : State) (i : ClosureIx) (n : Word) (j : Nat) :
    (s.setRc i n).permAt j = s.permAt j := rfl
@[simp] theorem State.posOf_setRc (s : State) (i : ClosureIx) (n : Word) (k : ClosureIx) :
    (s.setRc i n).posOf k = s.posOf k := rfl
@[simp] theorem State.permAt_setCnt (s : State) (n j : Nat) : (s.setCnt n).permAt j = s.permAt j := rfl
@[simp] theorem State.posOf_setCnt (s : State) (n : Nat) (k : ClosureIx) : (s.setCnt n).posOf k = s.posOf k := rfl

theorem State.permAt_place (s : State) {j : Nat} (hj : j < 255) (i : ClosureIx) (k : Nat) :
    (s.place j i).permAt k = if k = j then i else s.permAt k := by
  unfold State.permAt State.place
  simp only [Vector.toList_setIfInBounds, List.getD_eq_getElem?_getD, List.getElem?_set]
  by_cases h : k = j
  · subst h
    simp [hj]
  · simp [h, Ne.symm h]

theorem State.posOf_place (s : State) (j : Nat) {i k : ClosureIx} (hi : i ≠ 0) (hk : k ≠ 0) :
    (s.place j i).posOf k = if k = i then j else s.posOf k := by
  have hi' : i.toNat ≠ 0 := fun e => hi (BitVec.eq_of_toNat_eq e)
  have hk' : k.toNat ≠ 0 := fun e => hk (BitVec.eq_of_toNat_eq e)
  unfold State.posOf State.place
  simp only [Vector.toList_setIfInBounds, List.getD_eq_getElem?_getD, List.getElem?_set]
  by_cases h : k = i
  · subst h
    have : k.toNat - 1 < 255 := by omega
    simp [this]
  · have hne : i.toNat - 1 ≠ k.toNat - 1 := fun e => h (BitVec.eq_of_toNat_eq (by omega))
    simp [h, hne]

/-! ## The identity order -/

theorem identityPerm_getD {j : Nat} (h : j < 255) : identityPerm.toList.getD j 0 = BitVec.ofNat 8 (j + 1) := by
  simp [identityPerm, Vector.toList, List.getD_eq_getElem?_getD, h]

theorem identityPos_getD {j : Nat} (h : j < 255) : identityPos.toList.getD j 0 = j := by
  simp [identityPos, Vector.toList, List.getD_eq_getElem?_getD, h]

/-- The allocator as reset leaves it meets the partition invariant. -/
theorem State.AllocOk_identity {s : State} (h1 : s.rc = Vector.replicate 256 0) (h2 : s.perm = identityPerm)
    (h3 : s.pos = identityPos) (h4 : s.cnt = 0) : s.AllocOk := by
  have hrc : ∀ i, s.rcOf i = 0 := fun i => by simp [State.rcOf, h1]
  have hperm : ∀ j, j < 255 → s.permAt j = BitVec.ofNat 8 (j + 1) := fun j hj => by
    simp only [State.permAt, h2, identityPerm_getD hj]
  have hpos : ∀ i : ClosureIx, i ≠ 0 → s.posOf i = i.toNat - 1 ∧ i.toNat - 1 < 255 := fun i hi => by
    have hi' : i.toNat ≠ 0 := fun e => hi (BitVec.eq_of_toNat_eq e)
    have hlt : i.toNat - 1 < 255 := by omega
    exact ⟨by simp only [State.posOf, h3, identityPos_getD hlt], hlt⟩
  have hne : ∀ j, j < 255 → BitVec.ofNat 8 (j + 1) ≠ (0 : ClosureIx) := fun j hj e => by
    have := congrArg BitVec.toNat e
    simp at this
    omega
  refine ⟨hrc 0, by omega, fun i hi => ?_, fun i hi => ?_, fun j hj => ?_, fun j hj => ?_, fun i hi => ?_⟩
  · rw [(hpos i hi).1]
    exact (hpos i hi).2
  · have hi' : i.toNat ≠ 0 := fun e => hi (BitVec.eq_of_toNat_eq e)
    rw [(hpos i hi).1, hperm _ (hpos i hi).2]
    apply BitVec.eq_of_toNat_eq
    simp only [BitVec.toNat_ofNat]
    omega
  · rw [hperm j hj]
    exact hne j hj
  · rw [hperm j hj, (hpos _ (hne j hj)).1]
    simp only [BitVec.toNat_ofNat]
    omega
  · simp [hrc, h4]

/-- The invariant reads the allocator's registers and nothing else. -/
theorem State.AllocOk_congr {s t : State} (h : SameAllocator s t) (hs : s.AllocOk) : t.AllocOk := by
  obtain ⟨h1, h2, h3, h4⟩ := h
  have hr : ∀ i, t.rcOf i = s.rcOf i := fun i => by simp [State.rcOf, h1]
  have hp : ∀ j, t.permAt j = s.permAt j := fun j => by simp [State.permAt, h2]
  have hq : ∀ i, t.posOf i = s.posOf i := fun i => by simp [State.posOf, h3]
  exact ⟨by rw [hr]; exact hs.rcNull, by rw [h4]; exact hs.cntLe, fun i hi => by rw [hq]; exact hs.posLt i hi,
    fun i hi => by rw [hq, hp]; exact hs.permPos i hi, fun j hj => by rw [hp]; exact hs.permNe j hj,
    fun j hj => by rw [hp, hq]; exact hs.posPerm j hj, fun i hi => by rw [hr, hq, h4]; exact hs.liveIff i hi⟩

theorem State.AllocOk.pos_inj {s : State} (h : s.AllocOk) {i k : ClosureIx} (hi : i ≠ 0) (hk : k ≠ 0)
    (e : s.posOf i = s.posOf k) : i = k := by
  rw [← h.permPos i hi, ← h.permPos k hk, e]

/-! ## Exchanging two entries -/

/-- PERM and POS after two entries are exchanged. -/
theorem State.exchange_reads {s : State} (h : s.AllocOk) {a b : Nat} (ha : a < 255) (hb : b < 255) :
    let t := (s.place a (s.permAt b)).place b (s.permAt a)
    (∀ j, t.permAt j = if j = b then s.permAt a else if j = a then s.permAt b else s.permAt j) ∧
    (∀ i : ClosureIx, i ≠ 0 → t.posOf i =
      if i = s.permAt a then b else if i = s.permAt b then a else s.posOf i) := by
  refine ⟨fun j => ?_, fun i hi => ?_⟩
  · rw [State.permAt_place _ hb, State.permAt_place _ ha]
  · rw [State.posOf_place _ _ (h.permNe a ha) hi, State.posOf_place _ _ (h.permNe b hb) hi]

/-- Exchanging two entries keeps PERM a permutation with POS its inverse. -/
theorem State.exchange_inverse {s : State} (h : s.AllocOk) {a b : Nat} (ha : a < 255) (hb : b < 255) :
    let t := (s.place a (s.permAt b)).place b (s.permAt a)
    (∀ i : ClosureIx, i ≠ 0 → t.posOf i < 255 ∧ t.permAt (t.posOf i) = i) ∧
    (∀ j, j < 255 → t.permAt j ≠ 0 ∧ t.posOf (t.permAt j) = j) := by
  obtain ⟨hp, hq⟩ := State.exchange_reads h ha hb
  refine ⟨fun i hi => ?_, fun j hj => ?_⟩
  · rw [hq i hi]
    by_cases h1 : i = s.permAt a
    · rw [if_pos h1, hp, if_pos rfl]
      exact ⟨hb, h1.symm⟩
    · rw [if_neg h1]
      by_cases h2 : i = s.permAt b
      · have hab : a ≠ b := fun e => h1 (e ▸ h2)
        rw [if_pos h2, hp, if_neg hab, if_pos rfl]
        exact ⟨ha, h2.symm⟩
      · have hna : s.posOf i ≠ a := fun e => h1 (by rw [← e, h.permPos i hi])
        have hnb : s.posOf i ≠ b := fun e => h2 (by rw [← e, h.permPos i hi])
        rw [if_neg h2, hp, if_neg hnb, if_neg hna]
        exact ⟨h.posLt i hi, h.permPos i hi⟩
  · rw [hp]
    by_cases h1 : j = b
    · rw [if_pos h1]
      refine ⟨h.permNe a ha, ?_⟩
      rw [hq _ (h.permNe a ha), if_pos rfl, h1]
    · rw [if_neg h1]
      by_cases h2 : j = a
      · rw [if_pos h2]
        refine ⟨h.permNe b hb, ?_⟩
        have hne : s.permAt b ≠ s.permAt a := fun e => by
          have := h.posPerm b hb
          rw [e, h.posPerm a ha] at this
          omega
        rw [hq _ (h.permNe b hb), if_neg hne, if_pos rfl, h2]
      · rw [if_neg h2]
        have hna : s.permAt j ≠ s.permAt a := fun e => h2 (by rw [← h.posPerm j hj, e, h.posPerm a ha])
        have hnb : s.permAt j ≠ s.permAt b := fun e => h1 (by rw [← h.posPerm j hj, e, h.posPerm b hb])
        refine ⟨h.permNe j hj, ?_⟩
        rw [hq _ (h.permNe j hj), if_neg hna, if_neg hnb, h.posPerm j hj]

/-! ## Electing a free index -/

/-- An election orders the free indexes only: the first CNT entries stand, and the invariant is kept. -/
theorem State.AllocOk_elect {s : State} (h : s.AllocOk) (hc : s.cnt < 255) :
    s.elect.AllocOk ∧ ∀ j, j < s.cnt → s.elect.permAt j = s.permAt j := by
  unfold State.elect
  cases s.params.allocPolicy with
  | reference => exact ⟨h, fun _ _ => rfl⟩
  | election =>
    have hj : s.cnt + Config.electFree s.elections % (255 - s.cnt) < 255 := by
      have := Nat.mod_lt (Config.electFree s.elections) (show 0 < 255 - s.cnt by omega)
      omega
    have hge : s.cnt ≤ s.cnt + Config.electFree s.elections % (255 - s.cnt) := Nat.le_add_right _ _
    generalize s.cnt + Config.electFree s.elections % (255 - s.cnt) = j at hj hge
    obtain ⟨hp, hq⟩ := State.exchange_reads h hj hc
    obtain ⟨hi1, hi2⟩ := State.exchange_inverse h hj hc
    refine ⟨?_, fun k hk => ?_⟩
    · refine State.AllocOk_congr (s := (s.place j (s.permAt s.cnt)).place s.cnt (s.permAt j))
        ⟨rfl, rfl, rfl, rfl⟩ ?_
      refine ⟨h.rcNull, h.cntLe, fun i hi => (hi1 i hi).1, fun i hi => (hi1 i hi).2, fun k hk => (hi2 k hk).1,
        fun k hk => (hi2 k hk).2, fun i hi => ?_⟩
      rw [hq i hi]
      show s.rcOf i ≠ 0 ↔ _ < s.cnt
      rw [h.liveIff i hi]
      by_cases h1 : i = s.permAt j
      · rw [if_pos h1, h1, h.posPerm j hj]
        omega
      · rw [if_neg h1]
        by_cases h2 : i = s.permAt s.cnt
        · rw [if_pos h2, h2, h.posPerm _ hc]
          omega
        · rw [if_neg h2]
    · show ((s.place j (s.permAt s.cnt)).place s.cnt (s.permAt j)).permAt k = _
      rw [hp, if_neg (by omega), if_neg (by omega)]

/-! ## Allocate -/

theorem State.allocate_eq_error {s : State} {e : Halt} :
    s.allocate = .error e ↔ 255 ≤ s.cnt ∧ e = .allocExhausted := by
  unfold State.allocate
  split <;> simp_all [eq_comm]

/-- Everything a successful Allocate does. -/
theorem State.allocate_eq_ok {s t : State} {i : ClosureIx} :
    s.allocate = .ok (i, t) ↔
      s.cnt < 255 ∧ i = s.elect.permAt s.cnt ∧ t = (s.elect.setCnt (s.cnt + 1)).setRc i 1 := by
  unfold State.allocate
  split
  · simp only [reduceCtorEq, false_iff]
    omega
  · simp only [Except.ok.injEq, Prod.mk.injEq, State.elect_cnt]
    constructor
    · rintro ⟨rfl, rfl⟩
      exact ⟨by omega, rfl, rfl⟩
    · rintro ⟨-, rfl, rfl⟩
      exact ⟨rfl, rfl⟩

/-- Allocate returns a free index of 1 to 255, which becomes live with count 1, and keeps the invariant. -/
theorem State.AllocOk_allocate {s t : State} {i : ClosureIx} (h : s.AllocOk) (e : s.allocate = .ok (i, t)) :
    i ≠ 0 ∧ s.rcOf i = 0 ∧ t.rcOf i = 1 ∧ (∀ k, k ≠ i → t.rcOf k = s.rcOf k) ∧ t.cnt = s.cnt + 1 ∧ t.AllocOk := by
  obtain ⟨hc, hi, rfl⟩ := State.allocate_eq_ok.1 e
  obtain ⟨he, -⟩ := State.AllocOk_elect h hc
  have hcnt : s.elect.cnt = s.cnt := by simp
  have hne : i ≠ 0 := hi ▸ he.permNe _ hc
  have hpos : s.elect.posOf i = s.cnt := by rw [hi, he.posPerm _ hc]
  have hfree : s.elect.rcOf i = 0 := by
    by_contra hcon
    have := (he.liveIff i hne).1 hcon
    omega
  refine ⟨hne, by simpa using hfree, by simp [State.rcOf_setRc], fun k hk => by simp [State.rcOf_setRc, hk], rfl, ?_⟩
  refine ⟨?_, ?_, he.posLt, he.permPos, he.permNe, he.posPerm, fun k hk => ?_⟩
  · rw [State.rcOf_setRc, if_neg (Ne.symm hne)]
    exact he.rcNull
  · show s.cnt + 1 ≤ 255
    omega
  · rw [State.rcOf_setRc]
    show _ ↔ s.elect.posOf k < s.cnt + 1
    by_cases hk' : k = i
    · subst hk'
      simp [hpos]
    · have hpk : s.elect.posOf k ≠ s.cnt := fun e' => hk' (he.pos_inj hk hne (by rw [e', hpos]))
      have := he.liveIff k hk
      rw [hcnt] at this
      simp only [if_neg hk', State.rcOf_setCnt]
      rw [this]
      omega

/-! ## Retain -/

/-- Everything Retain can do (R133). -/
theorem State.retain_cases (s : State) (i : ClosureIx) :
    (i = 0 ∧ s.retain i = .ok s) ∨
    (i ≠ 0 ∧ (s.rcOf i = 0 ∨ s.rcOf i = 0xFFFFFFFF) ∧ s.retain i = .error .refcountViolation) ∨
    (i ≠ 0 ∧ s.rcOf i ≠ 0 ∧ s.rcOf i ≠ 0xFFFFFFFF ∧ s.retain i = .ok (s.setRc i (s.rcOf i + 1))) := by
  unfold State.retain
  split
  · exact .inl ⟨‹_›, rfl⟩
  · split
    · exact .inr (.inl ⟨‹_›, .inl ‹_›, rfl⟩)
    · split
      · exact .inr (.inl ⟨‹_›, .inr ‹_›, rfl⟩)
      · exact .inr (.inr ⟨‹_›, ‹_›, ‹_›, rfl⟩)

theorem Word.add_one_ne_zero {v : Word} (h : v ≠ 0xFFFFFFFF) : v + 1 ≠ 0 := by
  intro e
  bv_omega

/-- Changing the count of a live index to another that is not 0 keeps the invariant. -/
theorem State.AllocOk_setRc {s : State} (h : s.AllocOk) {i : ClosureIx} {n : Word} (hi : i ≠ 0) (hl : s.rcOf i ≠ 0)
    (hn : n ≠ 0) : (s.setRc i n).AllocOk := by
  refine ⟨?_, h.cntLe, h.posLt, h.permPos, h.permNe, h.posPerm, fun k hk => ?_⟩
  · rw [State.rcOf_setRc, if_neg (Ne.symm hi)]
    exact h.rcNull
  · rw [State.rcOf_setRc]
    by_cases hk' : k = i
    · subst hk'
      rw [if_pos rfl]
      exact ⟨fun _ => (h.liveIff k hk).1 hl, fun _ => hn⟩
    · simpa [hk'] using h.liveIff k hk

theorem State.AllocOk_retain {s t : State} {i : ClosureIx} (h : s.AllocOk) (e : s.retain i = .ok t) : t.AllocOk := by
  rcases s.retain_cases i with ⟨-, h1⟩ | ⟨-, -, h1⟩ | ⟨h1, h2, h3, h4⟩
  · rw [h1] at e
    cases e
    exact h
  · rw [h1] at e
    cases e
  · rw [h4] at e
    cases e
    exact State.AllocOk_setRc h h1 h2 (Word.add_one_ne_zero h3)

/-! ## Release -/

/-- Everything Release can do (R134). -/
theorem State.release_cases (s : State) (i : ClosureIx) :
    (i = 0 ∧ s.release i = .ok s) ∨
    (i ≠ 0 ∧ s.rcOf i = 0 ∧ s.release i = .error .refcountViolation) ∨
    (i ≠ 0 ∧ s.rcOf i = 1 ∧ s.release i = .ok ((s.setRc i 0).freeIndex i)) ∨
    (i ≠ 0 ∧ s.rcOf i ≠ 0 ∧ s.rcOf i ≠ 1 ∧ s.release i = .ok (s.setRc i (s.rcOf i - 1))) := by
  unfold State.release
  split
  · exact .inl ⟨‹_›, rfl⟩
  · split
    · exact .inr (.inl ⟨‹_›, ‹_›, rfl⟩)
    · simp only [State.rcOf_setRc, if_pos]
      by_cases h1 : s.rcOf i = 1
      · refine .inr (.inr (.inl ⟨‹_›, h1, ?_⟩))
        rw [h1]
        rfl
      · have hne : s.rcOf i - 1 ≠ 0 := fun e => h1 (by simpa using BitVec.sub_eq_iff_eq_add.1 e)
        refine .inr (.inr (.inr ⟨‹_›, ‹_›, h1, ?_⟩))
        rw [if_neg hne]

/-- Freeing a live index whose count has been set to 0: it leaves the first CNT entries, and becomes the first free one. -/
theorem State.AllocOk_freeIndex {s : State} (h : s.AllocOk) {i : ClosureIx} (hi : i ≠ 0) (hl : s.rcOf i ≠ 0) :
    0 < s.cnt ∧ ((s.setRc i 0).freeIndex i).permAt (s.cnt - 1) = i ∧ ((s.setRc i 0).freeIndex i).AllocOk := by
  have hpos : s.posOf i < s.cnt := (h.liveIff i hi).1 hl
  have hc := h.cntLe
  have ha : s.posOf i < 255 := h.posLt i hi
  have hb : s.cnt - 1 < 255 := by omega
  have hpi : s.permAt (s.posOf i) = i := h.permPos i hi
  obtain ⟨hp, hq⟩ := State.exchange_reads h ha hb
  obtain ⟨hi1, hi2⟩ := State.exchange_inverse h ha hb
  rw [hpi] at hp hq hi1 hi2
  refine ⟨by omega, ?_, ?_⟩
  · exact (hp (s.cnt - 1)).trans (if_pos rfl)
  · refine ⟨?_, ?_, fun k hk => (hi1 k hk).1, fun k hk => (hi1 k hk).2, fun j hj => (hi2 j hj).1,
      fun j hj => (hi2 j hj).2, fun k hk => ?_⟩
    · rw [State.rcOf_freeIndex, State.rcOf_setRc, if_neg (Ne.symm hi)]
      exact h.rcNull
    · show s.cnt - 1 ≤ 255
      omega
    · rw [State.rcOf_freeIndex, State.rcOf_setRc]
      show _ ↔ ((s.place (s.posOf i) (s.permAt (s.cnt - 1))).place (s.cnt - 1) i).posOf k < s.cnt - 1
      rw [hq k hk]
      by_cases hk' : k = i
      · subst hk'
        simp
      · rw [if_neg hk', if_neg hk', h.liveIff k hk]
        by_cases h2 : k = s.permAt (s.cnt - 1)
        · have hkp : s.posOf k = s.cnt - 1 := by rw [h2, h.posPerm _ hb]
          have hne : s.posOf i ≠ s.cnt - 1 := fun e' => hk' (h.pos_inj hk hi (by rw [hkp, e']))
          rw [if_pos h2, hkp]
          omega
        · have hkp : s.posOf k ≠ s.cnt - 1 := fun e' => h2 (by rw [← e', h.permPos k hk])
          rw [if_neg h2]
          omega

theorem State.AllocOk_release {s t : State} {i : ClosureIx} (h : s.AllocOk) (e : s.release i = .ok t) : t.AllocOk := by
  rcases s.release_cases i with ⟨-, h1⟩ | ⟨-, -, h1⟩ | ⟨h1, h2, h3⟩ | ⟨h1, h2, h3, h4⟩
  · rw [h1] at e
    cases e
    exact h
  · rw [h1] at e
    cases e
  · rw [h3] at e
    cases e
    exact (State.AllocOk_freeIndex h h1 (by rw [h2]; decide)).2.2
  · rw [h4] at e
    cases e
    exact State.AllocOk_setRc h h1 h2 fun e' => h3 (by simpa using BitVec.sub_eq_iff_eq_add.1 e')

end Sys2Proof.Machine
end

