-- ==== Sys2Proof/Laws/Operands.lean ====
section
/-! SUPPORT. The operand forms: each form's one lemma says everything it can do. -/

namespace Sys2Proof.Machine

@[simp] theorem State.withLoc_none {s : State} {r : RegRef} (h : s.loc r = none) (k : Loc → State) :
    s.withLoc r k = s.raise .memoryFault := by simp [State.withLoc, h]

theorem State.withLoc_some {s : State} {r : RegRef} {l : Loc} (h : s.loc r = some l) (k : Loc → State) :
    s.withLoc r k = k l := by simp [State.withLoc, h]

/-- Resolving an operand: the MemoryFault, or going on with its location. -/
theorem State.withLoc_cases (s : State) (r : RegRef) (k : Loc → State) :
    (s.loc r = none ∧ s.withLoc r k = s.raise .memoryFault) ∨ ∃ l, s.loc r = some l ∧ s.withLoc r k = k l := by
  cases h : s.loc r with
  | none => exact .inl ⟨rfl, State.withLoc_none h k⟩
  | some l => exact .inr ⟨l, rfl, State.withLoc_some h k⟩

/-- Checking an index: the MemoryFault, or going on with it. -/
theorem State.withIndex_cases (s : State) (a : Int) (k : Nat → State) :
    (stackIndex a = none ∧ s.withIndex a k = s.raise .memoryFault) ∨
      ∃ n, stackIndex a = some n ∧ s.withIndex a k = k n := by
  unfold State.withIndex
  cases h : stackIndex a with
  | none => exact .inl ⟨rfl, rfl⟩
  | some n => exact .inr ⟨n, rfl, rfl⟩

/-- The form of LI, LU, INC. -/
theorem State.updateReg_cases (s : State) (x : RegRef) (f : Word → Word) :
    (s.loc x = none ∧ s.updateReg x f = s.raise .memoryFault) ∨
    ∃ lx, s.loc x = some lx ∧ s.updateReg x f = (s.writeLoc lx (f (s.readLoc lx))).advance :=
  s.withLoc_cases x _

/-- The form of MOV. -/
theorem State.copyReg_cases (s : State) (x y : RegRef) :
    ((s.loc x = none ∨ s.loc y = none) ∧ s.copyReg x y = s.raise .memoryFault) ∨
    ∃ lx ly, s.loc x = some lx ∧ s.loc y = some ly ∧
      s.copyReg x y = (s.writeLoc lx (s.readLoc ly)).advance := by
  unfold State.copyReg
  cases hx : s.loc x <;> cases hy : s.loc y <;> simp [State.withLoc, hx, hy]

/-- The three-register form. -/
theorem State.binop_cases (s : State) (op : Word → Word → Except Halt Word) (x y z : RegRef) :
    ((s.loc x = none ∨ s.loc y = none ∨ s.loc z = none) ∧ s.binop op x y z = s.raise .memoryFault) ∨
    ∃ lx ly lz, s.loc x = some lx ∧ s.loc y = some ly ∧ s.loc z = some lz ∧
      ((∃ e, op (s.readLoc ly) (s.readLoc lz) = .error e ∧ s.binop op x y z = s.raise e) ∨
        ∃ v, op (s.readLoc ly) (s.readLoc lz) = .ok v ∧ s.binop op x y z = (s.writeLoc lx v).advance) := by
  unfold State.binop
  cases hx : s.loc x <;> cases hy : s.loc y <;> cases hz : s.loc z <;> simp [State.withLoc, hx, hy, hz]
  rename_i lx ly lz
  cases op (s.readLoc ly) (s.readLoc lz) <;> simp

/-- The form of LD. -/
theorem State.loadStack_cases (s : State) (x y : RegRef) (disp : Byte) :
    s.loadStack x y disp = s.raise .memoryFault ∨
    ∃ lx ly a, s.loc x = some lx ∧ s.loc y = some ly ∧ stackIndex (stackDisp (s.readLoc ly) disp) = some a ∧
      s.loadStack x y disp = (s.writeLoc lx (s.readStk a)).advance := by
  unfold State.loadStack
  cases hx : s.loc x <;> cases hy : s.loc y <;> simp [State.withLoc, hx, hy]
  rename_i lx ly
  rcases s.withIndex_cases (stackDisp (s.readLoc ly) disp) fun a => (s.writeLoc lx (s.readStk a)).advance with
    ⟨-, h⟩ | ⟨a, h1, h2⟩
  · exact .inl h
  · exact .inr ⟨a, h1, h2⟩

/-- The form of ST. -/
theorem State.storeStack_cases (s : State) (x : RegRef) (disp : Byte) (z : RegRef) :
    s.storeStack x disp z = s.raise .memoryFault ∨
    ∃ lx lz a, s.loc x = some lx ∧ s.loc z = some lz ∧ stackIndex (stackDisp (s.readLoc lx) disp) = some a ∧
      s.storeStack x disp z = (s.writeLoc (.stk a) (s.readLoc lz)).advance := by
  unfold State.storeStack
  cases hx : s.loc x <;> cases hz : s.loc z <;> simp [State.withLoc, hx, hz]
  rename_i lx lz
  rcases s.withIndex_cases (stackDisp (s.readLoc lx) disp) fun a => (s.writeStk a (s.readLoc lz)).advance with
    ⟨-, h⟩ | ⟨a, h1, h2⟩
  · exact .inl h
  · exact .inr ⟨a, h1, h2⟩

/-- The form of RETAIN, RELEASE and PRINT. -/
theorem State.actOnReg_cases (s : State) (x : RegRef) (act : Word → Except Halt State) :
    (s.loc x = none ∧ s.actOnReg x act = s.raise .memoryFault) ∨
    ∃ lx, s.loc x = some lx ∧
      ((∃ e, act (s.readLoc lx) = .error e ∧ s.actOnReg x act = s.raise e) ∨
        ∃ t, act (s.readLoc lx) = .ok t ∧ s.actOnReg x act = t.advance) := by
  unfold State.actOnReg
  cases hx : s.loc x <;> simp [State.withLoc, hx]
  rename_i lx
  cases act (s.readLoc lx) <;> simp

end Sys2Proof.Machine
end

