-- ==== Sys2Proof/Laws/Step.lean ====
section
/-! SUPPORT. What an instruction can do, what the cycle before dispatch can do, and what a step can do, each said once. -/

namespace Sys2Proof.Machine

/-! ## exec, arm by arm -/

section Arms
variable (s : State)
@[simp] theorem exec_li (x : RegRef) (imm : Half) : exec (.li x imm) s = .next (s.updateReg x fun _ => zext16 imm) := rfl
@[simp] theorem exec_lu (x : RegRef) (imm : Half) : exec (.lu x imm) s = .next (s.updateReg x fun v => v ||| upperHalf imm) := rfl
@[simp] theorem exec_mov (x y : RegRef) : exec (.mov x y) s = .next (s.copyReg x y) := rfl
@[simp] theorem exec_ld (x y : RegRef) (d : Byte) : exec (.ld x y d) s = .next (s.loadStack x y d) := rfl
@[simp] theorem exec_st (x : RegRef) (d : Byte) (z : RegRef) : exec (.st x d z) s = .next (s.storeStack x d z) := rfl
@[simp] theorem exec_add (x y z : RegRef) : exec (.add x y z) s = .next (s.binop aluAdd x y z) := rfl
@[simp] theorem exec_sub (x y z : RegRef) : exec (.sub x y z) s = .next (s.binop aluSub x y z) := rfl
@[simp] theorem exec_mul (x y z : RegRef) : exec (.mul x y z) s = .next (s.binop aluMul x y z) := rfl
@[simp] theorem exec_div (x y z : RegRef) : exec (.div x y z) s = .next (s.binop aluDiv x y z) := rfl
@[simp] theorem exec_mod (x y z : RegRef) : exec (.mod x y z) s = .next (s.binop aluMod x y z) := rfl
@[simp] theorem exec_inc (x : RegRef) (imm : Half) : exec (.inc x imm) s = .next (s.updateReg x fun v => aluInc v imm) := rfl
@[simp] theorem exec_nand (x y z : RegRef) : exec (.nand x y z) s = .next (s.binop aluNand x y z) := rfl
@[simp] theorem exec_shl (x y z : RegRef) : exec (.shl x y z) s = .next (s.binop aluShl x y z) := rfl
@[simp] theorem exec_shr (x y z : RegRef) : exec (.shr x y z) s = .next (s.binop aluShr x y z) := rfl
@[simp] theorem exec_print (x : RegRef) : exec (.print x) s = .next (s.actOnReg x fun v => .ok (s.printWord v)) := rfl
@[simp] theorem exec_frame (imm : Half) : exec (.frame imm) s = .next (s.setFw (s.fw + sext16 imm)).advance := rfl
@[simp] theorem exec_mkc (x : RegRef) (p : Half) : exec (.mkc x p) s = .next (s.makeClosure x p) := rfl
@[simp] theorem exec_retain (x : RegRef) : exec (.retain x) s = .next (s.actOnReg x fun v => s.retain (closureIndex v)) := rfl
@[simp] theorem exec_release (x : RegRef) : exec (.release x) s = .next (s.actOnReg x fun v => s.release (closureIndex v)) := rfl
@[simp] theorem exec_aux (i : Byte) : exec (.aux i) s = .next (s.setAw i).advance := rfl
@[simp] theorem exec_fn (n : Byte) (e : Half) : exec (.fn n e) s = .next (s.call e 0 n) := rfl
@[simp] theorem exec_fnrx (n : Byte) (y : RegRef) : exec (.fnrx n y) s = .next (s.withLoc y fun ly =>
    s.call (descEntry (s.readLoc ly)) (descClosure s.params.descLayout (s.readLoc ly)) n) := rfl
@[simp] theorem exec_brk : exec .brk s = .next s.advance := rfl
end Arms

theorem exec_ret_nil {s : State} (h : s.cstk = []) : exec .ret s = .fault .callStackUnderflow := by
  simp [exec, execRet, h]

theorem exec_ret_cons {s : State} {f : Frame} {rest : List Frame} (h : s.cstk = f :: rest) :
    exec .ret s = .next (s.popRecord f rest) := by simp [exec, execRet, h]

/-! ## makeClosure -/

/-- Everything MKC can do. -/
theorem State.makeClosure_cases (s : State) (x : RegRef) (p : Half) :
    (s.loc x = none ∧ s.makeClosure x p = s.raise .memoryFault) ∨
    (∃ l, s.loc x = some l ∧ s.allocate = .error .allocExhausted ∧ s.makeClosure x p = s.raise .allocExhausted) ∨
    (∃ l i t m, s.loc x = some l ∧ s.allocate = .ok (i, t) ∧ (t.setAw i).loc x = some m ∧
      s.makeClosure x p = ((t.setAw i).writeLoc m (tagValue i p)).advance) := by
  rcases s.withLoc_cases x (fun _ => match s.allocate with
    | .error e => s.raise e
    | .ok (i, t) =>
      match (t.setAw i).loc x with
      | none => s.raise .memoryFault
      | some l => ((t.setAw i).writeLoc l (tagValue i p)).advance) with ⟨h1, h2⟩ | ⟨l, h1, h2⟩
  · exact .inl ⟨h1, h2⟩
  · cases ha : s.allocate with
    | error e =>
      obtain ⟨-, rfl⟩ := State.allocate_eq_error.1 ha
      exact .inr (.inl ⟨l, h1, rfl, (show s.makeClosure x p = _ from h2).trans (by rw [ha])⟩)
    | ok q =>
      obtain ⟨i, t⟩ := q
      obtain ⟨-, -, ht⟩ := State.allocate_eq_ok.1 ha
      have hm : ∃ m, (t.setAw i).loc x = some m := by
        rcases s.loc_cases x with ⟨hw, e⟩ | ⟨hw, -⟩ | ⟨hw, -⟩ | ⟨hw, e⟩
        · exact ⟨l, by rw [← h1]; simp [State.loc, hw, ht]⟩
        · exact ⟨_, by simp only [State.loc, hw]; rfl⟩
        · exact ⟨_, by simp only [State.loc, hw]; rfl⟩
        · exact ⟨l, by rw [← h1]; simp [State.loc, hw, ht]⟩
      obtain ⟨m, hm⟩ := hm
      refine .inr (.inr ⟨l, i, t, m, h1, rfl, hm, ?_⟩)
      exact (show s.makeClosure x p = _ from h2).trans (by simp only [ha, hm])

/-! ## What an instruction can do -/

/-- The effects of the 24 instructions, said once. -/
inductive ExecEffect (s : State) : State → Prop where
  | halt (e : Halt) : ExecEffect s (s.raise e)
  | store (l : Loc) (v : Word) (h : l.valid) : ExecEffect s (s.writeLoc l v).advance
  | closure (i : ClosureIx) (t : State) (l : Loc) (v : Word) (ha : s.allocate = .ok (i, t)) (h : l.valid) :
      ExecEffect s ((t.setAw i).writeLoc l v).advance
  | retain (i : ClosureIx) (t : State) (h : s.retain i = .ok t) : ExecEffect s t.advance
  | release (i : ClosureIx) (t : State) (h : s.release i = .ok t) : ExecEffect s t.advance
  | print (v : Word) : ExecEffect s (s.printWord v).advance
  | aux (i : ClosureIx) : ExecEffect s (s.setAw i).advance
  | frame (v : Word) : ExecEffect s (s.setFw v).advance
  | call (e : Half) (c : ClosureIx) (n : Byte) (h : s.callDepthReached = false) : ExecEffect s { s with
      cstk := ⟨s.pc, s.fw, s.cw⟩ :: s.cstk
      fw := s.fw + n.setWidth 32
      cw := c
      pc := e.setWidth 17 }
  | ret (f : Frame) (rest : List Frame) (h : s.cstk = f :: rest) : ExecEffect s (s.popRecord f rest)
  | advance : ExecEffect s s.advance

theorem ExecEffect.ofUpdateReg (s : State) (x : RegRef) (f : Word → Word) : ExecEffect s (s.updateReg x f) := by
  rcases s.updateReg_cases x f with ⟨-, h⟩ | ⟨lx, hx, h⟩ <;> rw [h]
  · exact .halt _
  · exact .store _ _ (State.loc_valid hx)

theorem ExecEffect.ofBinop (s : State) (op : Word → Word → Except Halt Word) (x y z : RegRef) :
    ExecEffect s (s.binop op x y z) := by
  rcases s.binop_cases op x y z with ⟨-, h⟩ | ⟨lx, ly, lz, hx, -, -, ⟨e, -, h⟩ | ⟨v, -, h⟩⟩ <;> rw [h]
  · exact .halt _
  · exact .halt _
  · exact .store _ _ (State.loc_valid hx)

theorem ExecEffect.ofCall (s : State) (e : Half) (c : ClosureIx) (n : Byte) : ExecEffect s (s.call e c n) := by
  rcases s.call_cases e c n with ⟨-, h⟩ | ⟨hd, h⟩ <;> rw [h]
  · exact .halt _
  · exact .call e c n hd

/-- Inversion of `exec`: whatever the instruction, its next state is one of these effects. -/
theorem exec_effect {i : Instr} {s t : State} (h : exec i s = .next t) : ExecEffect s t := by
  cases i with
  | li x imm => cases h; exact .ofUpdateReg s _ _
  | lu x imm => cases h; exact .ofUpdateReg s _ _
  | inc x imm => cases h; exact .ofUpdateReg s _ _
  | mov x y =>
    cases h
    rcases s.copyReg_cases x y with ⟨-, h⟩ | ⟨lx, ly, hx, -, h⟩ <;> rw [h]
    · exact .halt _
    · exact .store _ _ (State.loc_valid hx)
  | ld x y d =>
    cases h
    rcases s.loadStack_cases x y d with h | ⟨lx, ly, a, hx, -, -, h⟩ <;> rw [h]
    · exact .halt _
    · exact .store _ _ (State.loc_valid hx)
  | st x d z =>
    cases h
    rcases s.storeStack_cases x d z with h | ⟨lx, lz, a, -, -, ha, h⟩ <;> rw [h]
    · exact .halt _
    · exact .store _ _ (stackIndex_lt ha)
  | add x y z => cases h; exact .ofBinop s _ _ _ _
  | sub x y z => cases h; exact .ofBinop s _ _ _ _
  | mul x y z => cases h; exact .ofBinop s _ _ _ _
  | div x y z => cases h; exact .ofBinop s _ _ _ _
  | mod x y z => cases h; exact .ofBinop s _ _ _ _
  | nand x y z => cases h; exact .ofBinop s _ _ _ _
  | shl x y z => cases h; exact .ofBinop s _ _ _ _
  | shr x y z => cases h; exact .ofBinop s _ _ _ _
  | print x =>
    cases h
    rcases s.actOnReg_cases x (fun v => .ok (s.printWord v)) with ⟨-, h⟩ | ⟨lx, -, ⟨e, -, h⟩ | ⟨t, ht, h⟩⟩ <;> rw [h]
    · exact .halt _
    · exact .halt _
    · cases ht; exact .print _
  | frame imm => cases h; exact .frame _
  | mkc x p =>
    cases h
    rcases s.makeClosure_cases x p with ⟨-, h⟩ | ⟨l, -, -, h⟩ | ⟨l, i, t, m, -, ha, hm, h⟩ <;> rw [h]
    · exact .halt _
    · exact .halt _
    · exact .closure i t m _ ha (State.loc_valid hm)
  | retain x =>
    cases h
    rcases s.actOnReg_cases x (fun v => s.retain (closureIndex v)) with ⟨-, h⟩ | ⟨lx, -, ⟨e, -, h⟩ | ⟨t, ht, h⟩⟩ <;>
      rw [h]
    · exact .halt _
    · exact .halt _
    · exact .retain _ t ht
  | release x =>
    cases h
    rcases s.actOnReg_cases x (fun v => s.release (closureIndex v)) with ⟨-, h⟩ | ⟨lx, -, ⟨e, -, h⟩ | ⟨t, ht, h⟩⟩ <;>
      rw [h]
    · exact .halt _
    · exact .halt _
    · exact .release _ t ht
  | aux i => cases h; exact .aux _
  | fn n e => cases h; exact .ofCall s _ _ _
  | fnrx n y =>
    cases h
    rcases s.withLoc_cases y (fun ly => s.call (descEntry (s.readLoc ly))
      (descClosure s.params.descLayout (s.readLoc ly)) n) with ⟨-, h⟩ | ⟨ly, -, h⟩ <;> rw [h]
    · exact .halt _
    · exact .ofCall s _ _ _
  | ret =>
    cases hc : s.cstk with
    | nil => rw [exec_ret_nil hc] at h; cases h
    | cons f rest => rw [exec_ret_cons hc] at h; cases h; exact .ret f rest hc
  | brk => cases h; exact .advance

/-! ## The cycle before dispatch -/

/-- Everything lines 1 to 5 of the step can do. -/
theorem State.beginStep_cases (s : State) :
    (s.budgetSpent = true ∧ s.beginStep = .ended (s.raise .budgetExhausted)) ∨
    (s.budgetSpent = false ∧ 65535 < s.pc.toNat ∧ s.beginStep = .ended (s.tickUp.raise .memoryFault)) ∨
    (s.budgetSpent = false ∧ s.pc.toNat ≤ 65535 ∧ s.hookAnswer ≠ 0 ∧
      s.beginStep = .ended (s.tickUp.afterHook.raise (.hookHalt s.hookAnswer))) ∨
    (s.budgetSpent = false ∧ s.pc.toNat ≤ 65535 ∧ s.hookAnswer = 0 ∧
      s.beginStep = .fetched s.fetchWord s.tickUp.afterHook) := by
  have ha : s.tickUp.hookAnswer = s.hookAnswer := rfl
  have hf : s.tickUp.fetchWord = s.fetchWord := rfl
  unfold State.beginStep
  rw [ha, hf]
  cases hb : s.budgetSpent with
  | true => exact .inl ⟨rfl, rfl⟩
  | false =>
    by_cases hp : 65535 < s.pc.toNat
    · exact .inr (.inl ⟨rfl, hp, by simp [hp]⟩)
    · by_cases hh : s.hookAnswer = 0
      · exact .inr (.inr (.inr ⟨rfl, by omega, hh, by simp [hp, hh]⟩))
      · exact .inr (.inr (.inl ⟨rfl, by omega, hh, by rw [if_neg (by simp), if_neg hp, if_neg hh]⟩))

/-! ## The step -/

/-- Everything a step of a RUNNING machine can do. -/
theorem step_running_cases {s : State} (hs : s.status = .running) :
    (s.budgetSpent = true ∧ step s = .next (s.raise .budgetExhausted)) ∨
    (s.budgetSpent = false ∧ 65535 < s.pc.toNat ∧ step s = .next (s.tickUp.raise .memoryFault)) ∨
    (s.budgetSpent = false ∧ s.pc.toNat ≤ 65535 ∧ s.hookAnswer ≠ 0 ∧
      step s = .next (s.tickUp.afterHook.raise (.hookHalt s.hookAnswer))) ∨
    (s.budgetSpent = false ∧ s.pc.toNat ≤ 65535 ∧ s.hookAnswer = 0 ∧
      ((∃ op, decode s.fetchWord = .unrecognizedOpcode op ∧ step s = .next (s.tickUp.afterHook.raise .decodeError)) ∨
        ∃ i, decode s.fetchWord = .instr i ∧ step s = exec i s.tickUp.afterHook)) := by
  rcases s.beginStep_cases with ⟨h1, h⟩ | ⟨h1, h2, h⟩ | ⟨h1, h2, h3, h⟩ | ⟨h1, h2, h3, h⟩
  · exact .inl ⟨h1, by simp [step, hs, h]⟩
  · exact .inr (.inl ⟨h1, h2, by simp [step, hs, h]⟩)
  · exact .inr (.inr (.inl ⟨h1, h2, h3, by simp [step, hs, h]⟩))
  · refine .inr (.inr (.inr ⟨h1, h2, h3, ?_⟩))
    cases hd : decode s.fetchWord with
    | unrecognizedOpcode op => exact .inl ⟨op, rfl, by simp [step, hs, h, hd]⟩
    | instr i => exact .inr ⟨i, rfl, by simp [step, hs, h, hd]⟩

theorem step_not_running {s : State} (hs : s.status ≠ .running) : step s = s.awaitRequest := by
  unfold step
  cases h : s.status <;> simp_all

/-- Everything a run request can do. -/
theorem State.runRequest_cases (s : State) (q : RunRequest) :
    (programWellFormed q.program = false ∧ s.runRequest q = s.raise .loadRejected) ∨
    (programWellFormed q.program = true ∧ s.runRequest q = (s.loadImage q).call (trailerEntry q.program) 0 0) := by
  unfold State.runRequest
  cases h : programWellFormed q.program <;> simp

end Sys2Proof.Machine
end

