-- ==== Sys2Proof/Laws/Cycle.lean ====
section
/-! SUPPORT. The host's entry: the state `placeWord` answers fetches the placed word at its very next step. -/

namespace Sys2Proof.Machine

/-- What the two-word program of `placeWord` leaves. -/
theorem State.placeWord_loaded {s : State} (w : Word) (hs : s.status ≠ .running) :
    (s.placeWord w).status = .running ∧ (s.placeWord w).tick = 0 ∧ (s.placeWord w).limit = 0xFFFFFFFF ∧
    (s.placeWord w).pc = 65534 ∧ (s.placeWord w).hook = none ∧ (s.placeWord w).fetchWord = w := by
  have hd : ∀ d, (s.params.callDepthMax.map (max 1)) = some d → 0 < d := by
    intro d h
    obtain ⟨e, -, rfl⟩ := Option.map_eq_some_iff.1 h
    omega
  unfold State.placeWord
  rw [if_neg hs]
  generalize hq : ({ program := [w, placeTrailer], budget := 0xFFFFFFFF, hook := none } : RunRequest) = q
  generalize hu : ({ s with params := { s.params with callDepthMax := s.params.callDepthMax.map (max 1) } } : State) = u
  have hw : programWellFormed q.program = true := by rw [← hq]; rfl
  have hdep : (u.loadImage q).callDepthReached = false := by
    rw [State.callDepthReached_eq_false]
    intro d h
    refine hd d ?_
    rw [← hu] at h
    exact h
  have he : trailerEntry q.program = 0xFFFE := by
    rw [← hq]
    show yzField placeTrailer = 0xFFFE
    decide
  have hr : u.runRequest q = { u.loadImage q with
      cstk := ⟨0, 0, 0⟩ :: (u.loadImage q).cstk, fw := 0, cw := 0, pc := 65534 } := by
    rcases u.runRequest_cases q with ⟨h, -⟩ | ⟨-, h⟩
    · rw [hw] at h
      cases h
    · rw [h, he]
      rcases (u.loadImage q).call_cases 0xFFFE 0 0 with ⟨h1, -⟩ | ⟨-, h1⟩
      · rw [hdep] at h1
        cases h1
      · exact h1
  rw [hr, ← hq]
  refine ⟨rfl, rfl, rfl, rfl, rfl, ?_⟩
  show (Memory.lookup (Memory.writeBlock u.stk 65534 [w, placeTrailer]) 65534).getD _ = w
  rw [Memory.lookup_writeBlock]
  rfl

/-- The very next step of `placeWord`'s state begins an instruction, and the word it fetches is the placed one. -/
theorem State.placeWord_fetches (s : State) (w : Word) :
    (s.placeWord w).status = .running ∧ (s.placeWord w).budgetSpent = false ∧ (s.placeWord w).pc.toNat ≤ 65535 ∧
    (s.placeWord w).hookAnswer = 0 ∧ (s.placeWord w).fetchWord = w := by
  by_cases hs : s.status = .running
  · have hpc : (if s.pc.toNat ≤ 65535 then s.pc else 0).toNat ≤ 65535 := by
      split
      · assumption
      · decide
    have hb : (s.placeWord w).budgetSpent = false := by
      unfold State.placeWord
      rw [if_pos hs]
      by_cases h : s.limit.toNat ≤ s.tick.toNat
      · by_cases h0 : s.limit = 0
        · simp [State.budgetSpent, h0]
        · have : s.limit.toNat ≠ 0 := fun e => h0 (BitVec.eq_of_toNat_eq e)
          simp only [State.budgetSpent, h, decide_true, if_true, if_neg h0, decide_eq_false_iff_not]
          show ¬ _ ≤ 0
          omega
      · have h0 : s.limit ≠ 0 := fun e => h (by rw [e]; exact Nat.zero_le _)
        simp only [State.budgetSpent, h, decide_false, if_neg h0, Bool.false_eq_true, if_false]
    refine ⟨?_, hb, ?_, ?_, ?_⟩
    · unfold State.placeWord
      rw [if_pos hs]
      exact hs
    · unfold State.placeWord
      rw [if_pos hs]
      exact hpc
    · unfold State.placeWord State.hookAnswer
      rw [if_pos hs]
      cases s.hook <;> rfl
    · unfold State.placeWord
      rw [if_pos hs]
      simp [State.fetchWord, State.readStk]
  · obtain ⟨h1, h2, h3, h4, h5, h6⟩ := State.placeWord_loaded w hs
    refine ⟨h1, ?_, ?_, ?_, h6⟩
    · simp [State.budgetSpent, h2, h3]
    · rw [h4]
      decide
    · simp [State.hookAnswer, h5]

/-- A placed word that decodes runs as the very next instruction. -/
theorem step_placeWord (s : State) {w : Word} {i : Instr} (h : decode w = .instr i) :
    step (s.placeWord w) = exec i (s.placeWord w).tickUp.afterHook := by
  obtain ⟨h1, h2, h3, h4, h5⟩ := s.placeWord_fetches w
  rcases step_running_cases h1 with ⟨hb, -⟩ | ⟨-, hp, -⟩ | ⟨-, -, hh, -⟩ | ⟨-, -, -, ⟨op, hd, -⟩ | ⟨j, hd, he⟩⟩
  · rw [h2] at hb
    cases hb
  · omega
  · exact absurd h4 hh
  · rw [h5, h] at hd
    cases hd
  · rw [h5, h] at hd
    cases hd
    exact he

end Sys2Proof.Machine
end

