-- ==== Sys2Proof/Laws/Decode.lean ====
section
/-! SUPPORT. Register references and fields: packing and unpacking agree. -/

namespace Sys2Proof

@[simp] theorem RegRef.ofByte_toByte (r : RegRef) : RegRef.ofByte r.toByte = r := by
  obtain ⟨w, off⟩ := r
  cases w <;> revert off <;> decide

@[simp] theorem RegRef.toByte_ofByte (b : Byte) : (RegRef.ofByte b).toByte = b := by
  revert b
  decide

theorem opField_pack (op x y z : Byte) : opField (pack op x y z) = op := by
  apply BitVec.eq_of_getLsbD_eq
  intro i hi
  simp only [opField, pack]
  grind

theorem xField_pack (op x y z : Byte) : xField (pack op x y z) = x := by
  apply BitVec.eq_of_getLsbD_eq
  intro i hi
  simp only [xField, pack]
  grind

theorem yField_pack (op x y z : Byte) : yField (pack op x y z) = y := by
  apply BitVec.eq_of_getLsbD_eq
  intro i hi
  simp only [yField, pack]
  grind

theorem zField_pack (op x y z : Byte) : zField (pack op x y z) = z := by
  apply BitVec.eq_of_getLsbD_eq
  intro i hi
  simp only [zField, pack]
  grind

theorem opField_packWide (op x : Byte) (yz : Half) : opField (packWide op x yz) = op := by
  apply BitVec.eq_of_getLsbD_eq
  intro i hi
  simp only [opField, packWide]
  grind

theorem xField_packWide (op x : Byte) (yz : Half) : xField (packWide op x yz) = x := by
  apply BitVec.eq_of_getLsbD_eq
  intro i hi
  simp only [xField, packWide]
  grind

theorem yzField_packWide (op x : Byte) (yz : Half) : yzField (packWide op x yz) = yz := by
  apply BitVec.eq_of_getLsbD_eq
  intro i hi
  simp only [yzField, packWide]
  grind

/-- A word is the packing of its fields (30_encoding.md R61). -/
theorem pack_fields (w : Word) : pack (opField w) (xField w) (yField w) (zField w) = w := by
  apply BitVec.eq_of_getLsbD_eq
  intro i hi
  simp only [pack, opField, xField, yField, zField]
  grind

/-- The same with the 16-bit operand (R61). -/
theorem packWide_fields (w : Word) : packWide (opField w) (xField w) (yzField w) = w := by
  apply BitVec.eq_of_getLsbD_eq
  intro i hi
  simp only [packWide, opField, xField, yzField]
  grind

end Sys2Proof
end

