-- ==== Sys2Proof/Laws/PerInstr.lean ====
section
/-! SUPPORT. The per-instruction family EncodesCanonically: every instruction's encoding is a word as a producer should
write it, with a recognised opcode and 0 in every field its format does not use (30_encoding.md R66, R68, R72). -/

namespace Sys2Proof.Laws.EncodesCanonically

def Statement (i : Instr) : Prop := wordCanonical (encode i) = true

/-- The two checks, read off a packed word's fields. -/
theorem ofPack {op x y z : Byte} : wordCanonical (pack op x y z) = (decide (op.toNat ≤ 23) &&
    if op.toNat = 2 ∨ op.toNat = 21 then decide (z = 0)
    else if op.toNat = 14 ∨ op.toNat = 17 ∨ op.toNat = 18 ∨ op.toNat = 19 then decide (y = 0 ∧ z = 0)
    else if op.toNat = 15 then decide (x = 0)
    else if op.toNat = 22 ∨ op.toNat = 23 then decide (x = 0 ∧ y = 0 ∧ z = 0)
    else true) := by
  have ho : (pack op x y z).extractLsb' 0 8 = op := opField_pack op x y z
  have hx : (pack op x y z).extractLsb' 8 8 = x := xField_pack op x y z
  have hy : (pack op x y z).extractLsb' 16 8 = y := yField_pack op x y z
  have hz : (pack op x y z).extractLsb' 24 8 = z := zField_pack op x y z
  simp only [wordCanonical, wordWellFormed, unusedFieldsZero, ho, hx, hy, hz]

/-- The same for the formats with a 16-bit operand, which leave at most x unused. -/
theorem ofPackWide {op x : Byte} {yz : Half} (h1 : op.toNat ≤ 23) (h2 : op.toNat ∉ [2, 14, 17, 18, 19, 21, 22, 23])
    (h3 : op.toNat = 15 → x = 0) : wordCanonical (packWide op x yz) = true := by
  have ho : (packWide op x yz).extractLsb' 0 8 = op := opField_packWide op x yz
  have hx : (packWide op x yz).extractLsb' 8 8 = x := xField_packWide op x yz
  simp only [List.mem_cons, List.not_mem_nil, or_false, not_or] at h2
  simp only [wordCanonical, wordWellFormed, unusedFieldsZero, ho, hx]
  simp [h1, h2]
  exact Decidable.not_or_of_imp h3

theorem li (x : RegRef) (imm : Half) : Statement (.li x imm) := ofPackWide (by decide) (by decide) (by simp)
theorem lu (x : RegRef) (imm : Half) : Statement (.lu x imm) := ofPackWide (by decide) (by decide) (by simp)
theorem mov (x y : RegRef) : Statement (.mov x y) := ofPack
theorem ld (x y : RegRef) (disp : Byte) : Statement (.ld x y disp) := ofPack
theorem st (x : RegRef) (disp : Byte) (z : RegRef) : Statement (.st x disp z) := ofPack
theorem add (x y z : RegRef) : Statement (.add x y z) := ofPack
theorem sub (x y z : RegRef) : Statement (.sub x y z) := ofPack
theorem mul (x y z : RegRef) : Statement (.mul x y z) := ofPack
theorem div (x y z : RegRef) : Statement (.div x y z) := ofPack
theorem mod (x y z : RegRef) : Statement (.mod x y z) := ofPack
theorem inc (x : RegRef) (imm : Half) : Statement (.inc x imm) := ofPackWide (by decide) (by decide) (by simp)
theorem nand (x y z : RegRef) : Statement (.nand x y z) := ofPack
theorem shl (x y z : RegRef) : Statement (.shl x y z) := ofPack
theorem shr (x y z : RegRef) : Statement (.shr x y z) := ofPack
theorem print (x : RegRef) : Statement (.print x) := ofPack
theorem frame (imm : Half) : Statement (.frame imm) := ofPackWide (by decide) (by decide) fun _ => rfl
theorem mkc (x : RegRef) (payload : Half) : Statement (.mkc x payload) := ofPackWide (by decide) (by decide) (by simp)
theorem retain (x : RegRef) : Statement (.retain x) := ofPack
theorem release (x : RegRef) : Statement (.release x) := ofPack
theorem aux (slot : Byte) : Statement (.aux slot) := ofPack
theorem fn (size : Byte) (entry : Half) : Statement (.fn size entry) := ofPackWide (by decide) (by decide) (by simp)
theorem fnrx (size : Byte) (y : RegRef) : Statement (.fnrx size y) := ofPack
theorem ret : Statement .ret := ofPack
theorem brk : Statement .brk := ofPack

end Sys2Proof.Laws.EncodesCanonically
end

