-- ==== Sys2Proof/Tests/Slice0.lean ====
section
/-! SUPPORT. The model's own tests. Expected values come from spec/95_test_vectors.md (the vector's id stands in the
docstring) and from the encodings of 30_encoding.md, never from the model. After them, one witness for each obligation that
has hypotheses: a concrete state and operands that meet them. -/

namespace Sys2Proof.Tests

open Sys2Proof.Machine

/-! ## The start state of the single-step vectors (95_test_vectors.md, Part 2) -/

def demo : State :=
  { State.reset with status := .running, pc := 65100, gw := 65024, limit := 100, cstk := [⟨0, 0, 0⟩] }

/-- The start state with the instruction word `w` at PC and `words` below it. -/
def demoAt (w : Word) (words : Memory) : State := { demo with stk := words ++ [(65100, w)] }

/-- What `f` says of the state a step answers; `none` when it answers none. -/
def stepTo {α : Type} (f : State → α) (s : State) : Option α :=
  match step s with
  | .next t => some (f t)
  | .fault _ => none
  | .refused _ => none

/-- The same of one instruction. -/
def execTo {α : Type} (f : State → α) (i : Instr) (s : State) : Option α :=
  match exec i s with
  | .next t => some (f t)
  | .fault _ => none
  | .refused _ => none

/-- The same of `k` steps. -/
def runTo {α : Type} (f : State → α) (k : Nat) (s : State) : Option α :=
  match core.run k s with
  | .next t => some (f t)
  | .fault _ => none
  | .refused _ => none

/-- A halt as the vectors give it: STATUS, CODE, TICK, PC. -/
def haltOf (s : State) : Status × Word × BitVec 32 × PcWord := (s.status, s.code, s.tick, s.pc)

def f (k : BitVec 6) : RegRef := ⟨.frame, k⟩
def c (k : BitVec 6) : RegRef := ⟨.closure, k⟩
def a (k : BitVec 6) : RegRef := ⟨.auxiliary, k⟩
def g (k : BitVec 6) : RegRef := ⟨.global, k⟩

/-! ## Decoding: every constructor, from a word written out field by field as `z y x op` (R61, R66) -/

theorem test_decode_li : decode 0b0000000000000101_00000000_00000000 = .instr (.li (f 0) 5) := by decide
theorem test_decode_lu : decode 0b0001001000110100_00000000_00000001 = .instr (.lu (f 0) 0x1234) := by decide
theorem test_decode_mov : decode 0b00000000_11000000_10000001_00000010 = .instr (.mov (a 1) (g 0)) := by decide
theorem test_decode_ld : decode 0b00000011_00000001_00000000_00000011 = .instr (.ld (f 0) (f 1) 3) := by decide
theorem test_decode_st : decode 0b01000000_00000001_00000000_00000100 = .instr (.st (f 0) 1 (c 0)) := by decide
theorem test_decode_add : decode 0b00000001_11000000_00000000_00000101 = .instr (.add (f 0) (g 0) (f 1)) := by decide
theorem test_decode_sub : decode 0b10000000_01000000_01000000_00000110 = .instr (.sub (c 0) (c 0) (a 0)) := by decide
theorem test_decode_mul : decode 0b00000010_00000001_00000000_00000111 = .instr (.mul (f 0) (f 1) (f 2)) := by decide
theorem test_decode_div : decode 0b00000001_00000000_00111111_00001000 = .instr (.div (f 63) (f 0) (f 1)) := by decide
theorem test_decode_mod : decode 0b00000001_00000000_00000000_00001001 = .instr (.mod (f 0) (f 0) (f 1)) := by decide
theorem test_decode_inc : decode 0b1111111111111111_11000000_00001010 = .instr (.inc (g 0) 65535) := by decide
theorem test_decode_nand : decode 0b00000010_00000001_00000000_00001011 = .instr (.nand (f 0) (f 1) (f 2)) := by decide
theorem test_decode_shl : decode 0b00000010_00000001_00000000_00001100 = .instr (.shl (f 0) (f 1) (f 2)) := by decide
theorem test_decode_shr : decode 0b00000001_00000000_00000001_00001101 = .instr (.shr (f 1) (f 0) (f 1)) := by decide
theorem test_decode_print : decode 0b00000000_00000000_00000000_00001110 = .instr (.print (f 0)) := by decide
theorem test_decode_frame : decode 0b1111111111111101_00000000_00001111 = .instr (.frame (-3)) := by decide
theorem test_decode_mkc : decode 0b1111111111111111_01000001_00010000 = .instr (.mkc (c 1) 0xFFFF) := by decide
theorem test_decode_retain : decode 0b00000000_00000000_00000000_00010001 = .instr (.retain (f 0)) := by decide
theorem test_decode_release : decode 0b00000000_00000000_01000000_00010010 = .instr (.release (c 0)) := by decide
theorem test_decode_aux : decode 0b00000000_00000000_00000111_00010011 = .instr (.aux 7) := by decide
theorem test_decode_fn : decode 0b1111111000000000_00000011_00010100 = .instr (.fn 3 0xFE00) := by decide
theorem test_decode_fnrx : decode 0b00000000_00000010_00000011_00010101 = .instr (.fnrx 3 (f 2)) := by decide
theorem test_decode_ret : decode 0b00000000_00000000_00000000_00010110 = .instr .ret := by decide
theorem test_decode_brk : decode 0b00000000_00000000_00000000_00010111 = .instr .brk := by decide

/-- K18: unused fields are ignored. -/
theorem test_decode_unused_fields : decode 0x34120013 = .instr (.aux 0) ∧ decode 0x03020117 = .instr .brk := by decide

/-- R69: 24 is the first illegal opcode, 255 the last. -/
theorem test_decode_illegal : decode 0x00000018 = .unrecognizedOpcode 24 ∧ decode 0xFFFFFFFF = .unrecognizedOpcode 255 := by
  decide

/-! ## WellFormed: an ill-formed term for each check -/

theorem test_wordWellFormed_refuses : wordWellFormed 0x00000018 = false := by decide
theorem test_unusedFieldsZero_refuses : unusedFieldsZero 0xAB000002 = false ∧ unusedFieldsZero 0x0001000E = false ∧
    unusedFieldsZero 0x8000770F = false ∧ unusedFieldsZero 0x03020117 = false := by decide
theorem test_wordCanonical_refuses : wordCanonical 0xFFFFFF16 = false ∧ wordCanonical 0x00000019 = false := by decide
theorem test_programWellFormed_refuses_empty : programWellFormed [] = false := by decide
theorem test_programWellFormed_refuses_long : programWellFormed (List.replicate 65537 0) = false := by
  unfold programWellFormed
  rw [List.length_replicate]
  decide
theorem test_programWellFormed_accepts : programWellFormed (List.replicate 65536 0) = true ∧
    programWellFormed [0xFFFF0016] = true := by
  unfold programWellFormed
  rw [List.length_replicate]
  decide

/-- A code that is not negative; two causes with one code. -/
theorem test_haltCodesWellFormed_refuses : haltCodesWellFormed { HaltCodes.default with loadRejected := 0 } = false ∧
    haltCodesWellFormed { HaltCodes.default with decodeError := -1 } = false := by decide
/-- R181's numbers; another table a source-conforming machine may have (D8). -/
theorem test_haltCodesWellFormed_accepts : haltCodesWellFormed HaltCodes.default = true ∧
    haltCodesWellFormed { HaltCodes.default with memoryFault := -100 } = true := by decide

/-! ## Data movement -/

/-- M2: not sign-extended. -/
theorem test_li_global : stepTo (fun t => (t.readLoc (.stk 65087), t.pc, t.tick)) (demoAt 0xFFFFFF00 []) =
    some (0x0000FFFF, 65101, 1) := by decide
/-- M5: the frame register one past the end. -/
theorem test_li_faults : stepTo (fun t => (haltOf t, t.stk)) { demoAt 0x00013F00 [] with fw := 65473 } =
    some ((.halted, -3, 1, 65100), [(65100, 0x00013F00)]) := by decide
/-- M14: OR, not replace. -/
theorem test_lu_ors : stepTo (fun t => t.readLoc (.stk 0)) (demoAt 0x00F00001 [(0, 0x000F0001)]) = some 0x00FF0001 := by
  decide
/-- M16: `MOV a1, g0`. -/
theorem test_mov_windows : stepTo (fun t => t.readLoc (.cp 4 1)) { demoAt 0x00C08102 [(65024, 77)] with aw := 4 } =
    some 77 := by decide
/-- M21: a negative base. -/
theorem test_ld_negative_base : stepTo (fun t => t.readLoc (.stk 2)) { demoAt 0x01010003 [(0, 55), (3, -1)] with fw := 2 } =
    some 55 := by decide
/-- M27: the index does not wrap. -/
theorem test_ld_does_not_wrap : stepTo haltOf (demoAt 0x00010003 [(1, 0x7FFFFFFF)]) = some (.halted, -3, 1, 65100) := by
  decide
/-- M28. -/
theorem test_st_stores : stepTo (fun t => t.readLoc (.stk 205)) (demoAt 0x01050004 [(0, 200), (1, 42)]) = some 42 := by
  decide
/-- M32: the next word fetched is the one stored. -/
theorem test_st_then_fetch : stepTo State.fetchWord
    { demoAt 0x40010004 [(0, 65100)] with cw := 1, cp := [(64, 0x00000017)] } = some 0x00000017 := by decide

/-! ## Arithmetic -/

/-- What `OP f0, f1, f2` with f1 = p, f2 = q leaves in f0. -/
def result (word p q : Word) : Option Word := stepTo (fun t => t.readLoc (.stk 0)) (demoAt word [(0, 0), (1, p), (2, q)])

/-- S4, and the table of 2.2. -/
theorem test_add : result 0x02010005 0x7FFFFFFF 1 = some 0x80000000 ∧ result 0x02010005 (-1) 1 = some 0 := by decide
theorem test_sub : result 0x02010006 0 1 = some (-1) ∧ result 0x02010006 0x80000000 1 = some 0x7FFFFFFF := by decide
theorem test_mul : result 0x02010007 46341 46341 = some 0x80001219 ∧ result 0x02010007 0x80000000 (-1) = some 0x80000000 := by
  decide
theorem test_div : result 0x02010008 (-7) 2 = some (-3) ∧ result 0x02010008 7 (-2) = some (-3) ∧
    result 0x02010008 0x80000000 (-1) = some 0x80000000 := by decide
theorem test_mod : result 0x02010009 (-7) 2 = some (-1) ∧ result 0x02010009 7 (-2) = some 1 ∧
    result 0x02010009 0x80000000 0x7FFFFFFF = some (-1) := by decide
theorem test_nand : result 0x0201000B 0x0F0F0F0F 0x00FF00FF = some 0xFFF0FFF0 := by decide
theorem test_shl : result 0x0201000C 1 33 = some 2 ∧ result 0x0201000C 5 (-1) = some 0x80000000 := by decide
theorem test_shr : result 0x0201000D (-8) 33 = some (-4) ∧ result 0x0201000D 0xFF000000 8 = some 0xFFFF0000 := by decide
/-- A6. -/
theorem test_inc : stepTo (fun t => t.readLoc (.stk 65024)) (demoAt 0xFFFFC00A [(65024, 1)]) = some 65536 := by decide
/-- A3; A4: resolving comes before computing. -/
theorem test_div_by_zero : stepTo (fun t => (haltOf t, t.stk)) (demoAt 0x01000208 [(0, 9), (1, 0)]) =
      some ((.halted, -4, 1, 65100), [(0, 9), (1, 0), (65100, 0x01000208)]) ∧
    stepTo haltOf { demo with fw := 65473, stk := [(65100, 0x01003F08), (65473, 9), (65474, 0)] } =
      some (.halted, -3, 1, 65100) := by decide
/-- P6 with MOD. -/
theorem test_mod_by_zero : stepTo haltOf (demoAt 0x01000209 [(0, 9), (1, 0)]) = some (.halted, -4, 1, 65100) := by decide
/-- A7: c0 and a0 are one word. -/
theorem test_sub_overlap : stepTo (fun t => t.readLoc (.cp 5 0))
    { demoAt 0x80404006 [] with cw := 5, aw := 5, cp := [(320, 123)] } = some 0 := by decide

/-! ## Closures -/

/-- One closure allocated, count `n`; the allocator after K-seq1 row 1. -/
def oneLive (n : Word) (w : Word) (words : Memory) : State := { (demoAt w words).setRc 1 n with cnt := 1 }

/-- K1, K5. -/
theorem test_mkc : stepTo (fun t => (t.readLoc (.stk 0), t.aw, t.rcOf 1, t.cnt)) (demoAt 0x01230010 []) =
      some (0x01000123, 1, 1, 1) ∧
    stepTo (fun t => (haltOf t, t.aw, t.cnt)) { demoAt 0x00010010 [] with cnt := 255, aw := 3 } =
      some ((.halted, -6, 1, 65100), 3, 255) := by decide
/-- K2, with one index allocated: the value is written through the new AW. -/
theorem test_mkc_new_window : stepTo (fun t => (t.readLoc (.cp 2 0), t.aw)) { oneLive 1 0x00428010 [] with aw := 9 } =
    some (0x02000042, 2) := by decide
/-- K7, K10. -/
theorem test_retain : stepTo (fun t => t.rcOf 1) (oneLive 1 0x00000011 [(0, 0x01000123)]) = some 2 := by decide
theorem test_retain_overflow : stepTo (fun t => (haltOf t, t.rcOf 1)) (oneLive 0xFFFFFFFF 0x00000011 [(0, 0x01000000)]) =
    some ((.halted, -5, 1, 65100), 0xFFFFFFFF) := by decide
/-- K11: freed, the stale value stays. -/
theorem test_release_frees : stepTo (fun t => (t.rcOf 1, t.cnt, t.permAt 0, t.readLoc (.stk 0)))
    (oneLive 1 0x00000012 [(0, 0x01000123)]) = some (0, 0, 1, 0x01000123) := by decide +kernel
/-- K13. -/
theorem test_release_free_index : stepTo haltOf (demoAt 0x00000012 [(0, 0x01000123)]) =
    some (.halted, -5, 1, 65100) := by decide
/-- K17: a free slot can be selected. -/
theorem test_aux : stepTo (fun t => (t.aw, t.pc)) (demoAt 0x00000713 []) = some (7, 65101) := by decide

/-! ## Frames, calls, returns -/

/-- C3, C5. -/
theorem test_frame_wraps : stepTo State.fw { demoAt 0x0001000F [] with fw := 0x7FFFFFFF } = some 0x80000000 := by decide
theorem test_frame_signed : stepTo State.fw (demoAt 0x8000770F []) = some (-32768) := by decide
/-- C6. -/
theorem test_fn : stepTo (fun t => (t.cstk, t.fw, t.cw, t.pc))
    { demo with stk := [(65000, 0xFE000314)], pc := 65000, fw := 4, cw := 9 } =
    some ([⟨65000, 4, 9⟩, ⟨0, 0, 0⟩], 7, 0, 65024) := by decide
/-- C15. -/
theorem test_fn_depth : stepTo (fun t => (haltOf t, t.cstk.length)) { demoAt 0xFE4C0014 [] with
    params := { Params.default with callDepthMax := some 2 }, cstk := [⟨1, 0, 0⟩, ⟨0, 0, 0⟩] } =
    some ((.halted, -8, 1, 65100), 2) := by decide

/-- The state of C8 to C11: FNRX 3, f2 with STK[6] = d. -/
def fnrxState (layout : DescLayout) (d : Word) : State :=
  { demo with stk := [(6, d), (65000, 0x00020315)], pc := 65000, fw := 4, params := { Params.default with descLayout := layout } }

/-- C8, C11. -/
theorem test_fnrx_listed : stepTo (fun t => (t.cstk, t.fw, t.cw, t.pc)) (fnrxState .listed 0x0001FE00) =
    some ([⟨65000, 4, 0⟩, ⟨0, 0, 0⟩], 7, 1, 65024) ∧ stepTo State.cw (fnrxState .listed 0xAB05FE00) = some 5 := by decide
/-- C9, C10. -/
theorem test_fnrx_tagged : stepTo State.cw (fnrxState .tagged 0x0001FE00) = some 0 ∧
    stepTo State.cw (fnrxState .tagged 0x0100FE00) = some 1 := by decide
/-- C13. -/
theorem test_ret : stepTo (fun t => (t.cstk, t.fw, t.cw, t.pc, t.status))
    { demoAt 0x00000016 [] with fw := 7, cstk := [⟨65000, 4, 9⟩, ⟨0, 0, 0⟩] } =
    some ([⟨0, 0, 0⟩], 4, 9, 65001, .running) := by decide
/-- C14. -/
theorem test_ret_ends_run : stepTo (fun t => (haltOf t, t.cstk, t.fw, t.cw, t.aw))
    { demoAt 0xFFFFFF16 [] with fw := 12, cw := 3, aw := 4 } = some ((.halted, 0, 1, 0), [], 0, 0, 4) := by decide

/-! ## System, hook, step order -/

/-- S1, S2. -/
theorem test_print : stepTo (fun t => (t.printLog, t.pc)) (demoAt 0x0000000E [(0, 77)]) = some ([77], 65101) := by decide
theorem test_print_faults : stepTo (fun t => (haltOf t, t.printLog)) { demoAt 0x0000000E [] with fw := -1 } =
    some ((.halted, -3, 1, 65100), []) := by decide
/-- S12: BRK at the last word. -/
theorem test_brk : stepTo haltOf { demo with stk := [(65535, 0x00000017)], pc := 65535 } =
    some (.running, 0, 1, 65536) := by decide
/-- S5, S7: the hook is asked before decode. -/
theorem test_decode_error : stepTo haltOf (demoAt 0x00000018 []) = some (.halted, -2, 1, 65100) := by decide
theorem test_hook_before_decode : stepTo (fun t => (haltOf t, t.hookLog)) { demoAt 0xFFFFFFFF [] with hook := some [9] } =
    some ((.halted, 9, 1, 65100), [⟨65100, 0xFFFFFFFF⟩]) := by decide
/-- S9, S10, S11. -/
theorem test_budget_first : stepTo haltOf { demoAt 0x00000017 [] with tick := 100, hook := some [5] } =
    some (.halted, -1, 100, 65100) := by decide
theorem test_fetch_fault : stepTo (fun t => (haltOf t, t.hookLog)) { demo with pc := 65536, hook := some [5] } =
    some ((.halted, -3, 1, 65536), []) := by decide
theorem test_budget_before_fetch : stepTo haltOf { demo with pc := 65536, tick := 100 } = some (.halted, -1, 100, 65536) := by
  decide

/-- M7 under another HALT table: the code is the table's (D8). -/
theorem test_halt_table : stepTo haltOf { demoAt 0x00010000 [] with
    fw := -1, params := { Params.default with haltCodes := { HaltCodes.default with memoryFault := -100 } } } =
    some (.halted, -100, 1, 65100) := by decide

/-! ## The Loader and whole runs -/

/-- P1. -/
def programOne : List Word := [0x00050000, 0x00000016, 0xFFFD0016]

def requestOne (budget : BitVec 32) : State := { State.reset with requests := [⟨programOne, budget, none⟩] }

/-- L7: after the reset sequence of P1. -/
theorem test_loader : stepTo (fun t => (t.stk, t.gw, t.pc, t.fw, t.cstk)) (requestOne 2) =
    some ([(65533, 0x00050000), (65534, 0x00000016), (65535, 0xFFFD0016)], 65533, 65533, 0, [⟨0, 0, 0⟩]) := by decide
/-- L1. -/
theorem test_loader_rejects : stepTo (fun t => (t.status, t.code, t.stk)) { State.reset with requests := [⟨[], 5, none⟩] } =
    some (.halted, -7, []) := by decide
/-- P1 with budget 2: the last permitted step is the RET. The first step is the Loader's. -/
theorem test_program_one : runTo (fun t => (haltOf t, t.introspect (f 0), t.introspect (g 0), t.introspect (g 3))) 3
    (requestOne 2) = some ((.halted, 0, 2, 0), some 5, some 0x00050000, none) := by decide
/-- P1 with budget 1. -/
theorem test_program_one_budget : runTo haltOf 3 (requestOne 1) = some (.halted, -1, 1, 65534) := by decide

/-! ## The host's entry -/

theorem test_decodeTableWord : decodeTableWord 8 0x17 = some .brk ∧ decodeTableWord 32 0xFE000314 = some (.fn 3 0xFE00) ∧
    decodeTableWord 8 0x18 = none := by decide
theorem test_withFetchWord : stepTo (fun t => (t.readLoc (.stk 0), t.status)) (State.reset.withFetchWord 32 0x00050000) =
    some (5, .running) := by decide

/-! ## Witnesses: for each obligation with hypotheses, states and operands that meet them, at the boundaries of each clause -/

theorem witness_EncodeOfDecodeOnCanonicalWords :
    wordCanonical 0x00000713 = true ∧ decode 0x00000713 = .instr (.aux 7) := by decide

theorem witness_UnusedFieldsAreIgnored : (21 : Byte).toNat ∈ [2, 21] ∧ (19 : Byte).toNat ∈ [14, 17, 18, 19] ∧
    (15 : Byte).toNat = 15 ∧ (23 : Byte).toNat ∈ [22, 23] := by decide

/-- A state from which a step fetches a word and goes on to decode it. -/
abbrev Begins (s : State) : Prop :=
  s.status = .running ∧ s.tick.toNat < s.limit.toNat ∧ s.pc.toNat ≤ 65535 ∧ s.hookAnswer = 0

/-- Without a hook and with one; opcodes 24 and 255. -/
theorem witness_IllegalOpcodesRaiseDecodeError :
    (Begins (demoAt 0x00000018 []) ∧ 24 ≤ (opField (demoAt 0x00000018 []).fetchWord).toNat ∧
      (demoAt 0x00000018 []).hook = none) ∧
    (Begins { demoAt 0xFFFFFFFF [] with hook := some [0] } ∧
      24 ≤ (opField ({ demoAt 0xFFFFFFFF [] with hook := some [0] } : State).fetchWord).toNat) := by decide

/-- Each selector; the frame and global addresses 65535 and 65536, and -1 (M5 to M10). -/
theorem witness_AddressingEngineResolvesReferences :
    (({ demo with fw := 65472 } : State).loc (RegRef.ofByte 0x3F) = some (.stk 65535) ∧
      ({ demo with fw := 65473 } : State).loc (RegRef.ofByte 0x3F) = none ∧
      ({ demo with fw := -1 } : State).loc (RegRef.ofByte 0x00) = none ∧
      ({ demo with fw := -1 } : State).loc (RegRef.ofByte 0x01) = some (.stk 0)) ∧
    ({ demo with cw := 3 } : State).loc (RegRef.ofByte 0x45) = some (.cp 3 5) ∧
    ({ demo with aw := 255 } : State).loc (RegRef.ofByte 0xBF) = some (.cp 255 63) ∧
    (({ demo with gw := 65473 } : State).loc (RegRef.ofByte 0xFE) = some (.stk 65535) ∧
      ({ demo with gw := 65473 } : State).loc (RegRef.ofByte 0xFF) = none) := by decide

/-- One register in range and one out of range, as the register, memory, arithmetic, closure and system statements ask. -/
theorem witness_registers_resolve : demo.loc (f 0) = some (.stk 0) ∧ demo.loc (c 1) = some (.cp 0 1) ∧
    demo.loc (g 63) = some (.stk 65087) ∧ ({ demo with fw := -1 } : State).loc (f 0) = none := by decide

/-- `f k` and `g j` on one word and on two; `c` and `a` likewise. -/
theorem witness_OverlappingWindowsNameOneWord :
    ({ demo with fw := 65021 } : State).loc (f 3) = ({ demo with fw := 65021 } : State).loc (g 0) ∧
    ({ demo with fw := 65021 } : State).loc (g 0) = some (.stk 65024) ∧
    demo.loc (f 3) = some (.stk 3) ∧ demo.loc (c 2) = some (.cp 0 2) ∧ demo.loc (a 2) = some (.cp 0 2) := by decide

/-- LD's index at 0, 65535, 65536 and -1 (M21 to M24). -/
theorem witness_LdLoadsStackWordAtSignedIndex :
    ((demoAt 0 [(1, -1)]).readLoc (.stk 1)).toInt + (1 : Byte).toNat = 0 ∧
    ((demoAt 0 [(1, 65280)]).readLoc (.stk 1)).toInt + (255 : Byte).toNat = 65535 ∧
    ((demoAt 0 [(1, 65281)]).readLoc (.stk 1)).toInt + (255 : Byte).toNat = 65536 ∧
    ((demoAt 0 [(1, -1)]).readLoc (.stk 1)).toInt + (0 : Byte).toNat = -1 ∧ demo.loc (f 1) = some (.stk 1) := by decide

/-- ST's index at 0, 65535, 65536 and -1 (M28 to M31). -/
theorem witness_StStoresWordAtSignedIndex :
    ((demoAt 0 [(0, 0), (1, 42)]).readLoc (.stk 0)).toInt + (0 : Byte).toNat = 0 ∧
    ((demoAt 0 [(0, 65280), (1, 42)]).readLoc (.stk 0)).toInt + (255 : Byte).toNat = 65535 ∧
    ((demoAt 0 [(0, 65281), (1, 42)]).readLoc (.stk 0)).toInt + (255 : Byte).toNat = 65536 ∧
    ((demoAt 0 [(0, -1), (1, 42)]).readLoc (.stk 0)).toInt + (0 : Byte).toNat = -1 ∧ demo.loc (f 0) = some (.stk 0) := by
  decide

/-- M32. -/
theorem witness_StoredWordIsFetchedNext :
    (demoAt 0 [(0, 65100)]).loc (f 0) = some (.stk 0) ∧ (demoAt 0 [(0, 65100)]).loc (c 0) = some (.cp 0 0) ∧
    (demoAt 0 [(0, 65100)]).pc.toNat < 65535 ∧
    ((demoAt 0 [(0, 65100)]).readLoc (.stk 0)).toInt + (1 : Byte).toNat = (demoAt 0 [(0, 65100)]).pc.toNat + 1 := by decide

/-- A divisor of -1, and of 0. -/
theorem witness_DivMod : demo.loc (f 0) = some (.stk 0) ∧ demo.loc (f 1) = some (.stk 1) ∧ demo.loc (f 2) = some (.stk 2) ∧
    (demoAt 0 [(1, 0x80000000), (2, -1)]).readLoc (.stk 2) ≠ 0 ∧
    (demoAt 0 [(1, 5), (2, 0)]).readLoc (.stk 2) = 0 := by decide

theorem witness_QuotientAndRemainderRecoverDividend : (0xFFFFFFFF : Word) ≠ 0 := by decide

theorem demo_allocOk : demo.AllocOk := State.AllocOk_identity rfl rfl rfl rfl

/-- What Allocate answers from the start state: index 1, alone live. -/
theorem demo_allocate : ∃ t, demo.allocate = .ok (1, t) ∧ t.rcOf 1 = 1 ∧ t.AllocOk := by
  have h : demo.allocate = .ok (1, (demo.elect.setCnt (demo.cnt + 1)).setRc 1 1) :=
    State.allocate_eq_ok.2 ⟨by decide, by decide, rfl⟩
  obtain ⟨-, -, h1, -, -, h2⟩ := State.AllocOk_allocate demo_allocOk h
  exact ⟨_, h, h1, h2⟩

theorem witness_MkcAllocatesAndTags : demo.AllocOk ∧ demo.cnt < 255 ∧ demo.loc (f 0) ≠ none ∧
    demo.params.allocPolicy = .reference := ⟨demo_allocOk, by decide, by decide, rfl⟩

theorem witness_MkcHaltsWithoutAllocating : ({ demo with fw := -1 } : State).loc (f 0) = none ∧
    ({ demo with cnt := 255 } : State).loc (f 0) ≠ none ∧ 255 ≤ ({ demo with cnt := 255 } : State).cnt := by decide

/-- Index 0; a free index; counts 1, 2^32 - 2 and 2^32 - 1. -/
theorem witness_RetainIncrementsLiveCount :
    ((demoAt 0 [(0, 0x00FFFFFF)]).readLoc (.stk 0)).extractLsb' 24 8 = 0 ∧
    ((demoAt 0 [(0, 0x01000000)]).readLoc (.stk 0)).extractLsb' 24 8 = (1 : ClosureIx) ∧
    ((demoAt 0 [(0, 0x01000000)]).rcOf 1).toNat = 0 ∧ ((oneLive 1 0 [(0, 0x01000000)]).rcOf 1).toNat = 1 ∧
    ((oneLive 0xFFFFFFFE 0 [(0, 0x01000000)]).rcOf 1).toNat = 2 ^ 32 - 2 ∧
    ((oneLive 0xFFFFFFFF 0 [(0, 0x01000000)]).rcOf 1).toNat = 2 ^ 32 - 1 := by decide

/-- Index 0; a free index; counts 1 and 2. -/
theorem witness_ReleaseDecrementsLiveCount :
    ((demoAt 0 [(0, 5)]).readLoc (.stk 0)).extractLsb' 24 8 = 0 ∧
    ((demoAt 0 [(0, 0x01000123)]).readLoc (.stk 0)).extractLsb' 24 8 = (1 : ClosureIx) ∧
    ((demoAt 0 [(0, 0x01000123)]).rcOf 1).toNat = 0 ∧ ((oneLive 1 0 [(0, 0x01000123)]).rcOf 1).toNat = 1 ∧
    ((oneLive 2 0 [(0, 0x01000123)]).rcOf 1).toNat = 2 := by decide

theorem witness_FreeingReleaseReturnsIndexFirst :
    ∃ (s t : State) (i : ClosureIx), s.AllocOk ∧ i ≠ 0 ∧ s.rcOf i = 1 ∧ s.release i = .ok t := by
  obtain ⟨t, -, h1, h2⟩ := demo_allocate
  rcases t.release_cases 1 with ⟨h, -⟩ | ⟨-, h, -⟩ | ⟨-, -, h⟩ | ⟨-, -, h, -⟩
  · cases h
  · rw [h1] at h; cases h
  · exact ⟨t, _, 1, h2, by decide, h1, h⟩
  · exact absurd h1 h

theorem witness_ReleasedIndexIsReallocatedFirst : ∃ (s t u : State) (i : ClosureIx),
    s.AllocOk ∧ s.params.allocPolicy = .reference ∧ s.allocate = .ok (i, t) ∧ t.release i = .ok u := by
  obtain ⟨t, h0, h1, -⟩ := demo_allocate
  rcases t.release_cases 1 with ⟨h, -⟩ | ⟨-, h, -⟩ | ⟨-, -, h⟩ | ⟨-, -, h, -⟩
  · cases h
  · rw [h1] at h; cases h
  · exact ⟨demo, t, _, 1, demo_allocOk, rfl, h0, h⟩
  · exact absurd h1 h

theorem witness_BalancedRetainReleaseKeepsCounts : ∃ t, (oneLive 1 0 []).retain 1 = .ok t := ⟨_, rfl⟩

theorem witness_CntCountsLiveClosures : demo.AllocOk ∧ ∃ s : State, s.AllocOk ∧ s.rcOf 1 = 1 := by
  obtain ⟨t, -, h1, h2⟩ := demo_allocate
  exact ⟨demo_allocOk, t, h2, h1⟩

/-- The start state under a call depth limit of `d`, with one record on CSTK. -/
def demoDepth (d : Nat) : State := { demo with params := { Params.default with callDepthMax := some d } }

/-- Unbounded; one below the limit; at the limit. -/
theorem witness_Calls :
    (∀ d, demo.params.callDepthMax = some d → demo.cstk.length < d) ∧
    (∀ d, (demoDepth 2).params.callDepthMax = some d → (demoDepth 2).cstk.length < d) ∧
    ((demoDepth 1).params.callDepthMax = some 1 ∧ 1 ≤ (demoDepth 1).cstk.length) ∧
    (demoDepth 1).loc (f 2) = some (.stk 2) ∧ ({ demo with fw := -5 } : State).loc (f 0) = none := by
  refine ⟨?_, ?_, ⟨rfl, by decide⟩, by decide, by decide⟩
  · intro d h; cases h
  · intro d h; cases h; decide

theorem witness_RetRestoresSavedRecord :
    ({ demo with cstk := [⟨65000, 4, 9⟩, ⟨0, 0, 0⟩] } : State).cstk = ⟨65000, 4, 9⟩ :: ⟨0, 0, 0⟩ :: [] ∧
    demo.cstk = [⟨0, 0, 0⟩] ∧ State.reset.cstk = [] := by decide

/-- FN, FNRX and RET complete; FN at the depth limit halts. -/
theorem witness_CallsSaveExactlyPcFwCw : (∃ t, exec (.fn 3 0xFE00) demo = .next t) ∧
    (∃ t, exec (.fnrx 3 (f 2)) demo = .next t) ∧ (∃ t, exec .ret demo = .next t) ∧
    execTo haltOf (.fn 0 0) (demoDepth 1) = some (.halted, -8, 0, 65100) := by
  exact ⟨⟨_, rfl⟩, ⟨_, rfl⟩, ⟨_, rfl⟩, by decide⟩

/-- FN 0, 65101 at 65100; the callee is the BRK at 65101 and the RET at 65102. -/
def caller : State := { demo with stk := [(65100, 0xFE4D0014), (65101, 0x00000017), (65102, 0x00000016)] }

/-- The call, one BRK of the callee, and its RET. -/
theorem witness_NestedCallRestoresCaller : ∃ s₁ u v : State, caller.status = .running ∧ caller.cstk ≠ [] ∧
    step caller = .next s₁ ∧ s₁.cstk.length = caller.cstk.length + 1 ∧ RunsAbove caller.cstk.length s₁ u ∧
    u.status = .running ∧ step u = .next v ∧ v.cstk.length = caller.cstk.length := by
  refine ⟨_, _, _, rfl, by decide, rfl, rfl, .step rfl rfl (by decide) (.refl _), rfl, rfl, rfl⟩

theorem witness_PrintEmitsWordUnchanged : (demoAt 0x0000000E [(0, 77)]).loc (f 0) = some (.stk 0) ∧
    ({ demo with fw := -1 } : State).loc (f 0) = none := by decide

theorem witness_BrkOnlyAdvances : (Begins (demoAt 0x00000017 []) ∧ opField (demoAt 0x00000017 []).fetchWord = 0x17) ∧
    (Begins { demoAt 0x00000017 [] with hook := some [0] } ∧
      opField ({ demoAt 0x00000017 [] with hook := some [0] } : State).fetchWord = 0x17) := by decide

theorem witness_StepExecutesDecodedInstruction : Begins (demoAt 0x00000713 []) ∧
    decode ((demoAt 0x00000713 []).readLoc (.stk (demoAt 0x00000713 []).pc.toNat)) = .instr (.aux 7) := by decide

/-- Budget used up; PC at 65536; no hook; a hook that answers 0; one that answers 9. -/
theorem witness_StepChecksBudgetFetchHookInOrder : demo.status = .running ∧
    ({ demo with tick := 100 } : State).limit.toNat ≤ ({ demo with tick := 100 } : State).tick.toNat ∧
    (demo.tick.toNat < demo.limit.toNat ∧ 65535 < ({ demo with pc := 65536 } : State).pc.toNat) ∧ demo.hook = none ∧
    ({ demo with hook := some [0] } : State).hookAnswer = 0 ∧
    ({ demo with hook := some [9] } : State).hookAnswer ≠ 0 ∧ demo.pc.toNat ≤ 65535 := by decide

/-- The RET that pops the last record, a MemoryFault of an instruction, and BudgetExhausted. -/
theorem witness_HaltsArePrecise :
    (demo.status = .running ∧ stepTo haltOf (demoAt 0x00000016 []) = some (.halted, 0, 1, 0)) ∧
    stepTo haltOf { demoAt 0x00000000 [] with fw := -1 } = some (.halted, -3, 1, 65100) ∧
    stepTo haltOf { demo with tick := 100 } = some (.halted, -1, 100, 65100) := by decide

theorem witness_InstructionsRaiseOnlyTheirOwnHalts : demo.status = .running ∧
    execTo haltOf (.li (f 0) 1) { demo with fw := -1 } = some (.halted, -3, 0, 65100) ∧
    execTo haltOf .ret demo = some (.halted, 0, 0, 0) := by decide

theorem witness_EveryInstructionCostsOneTick :
    (demo.status = .running ∧ demo.tick.toNat < demo.limit.toNat ∧ stepTo State.tick (demoAt 0x00000017 []) = some 1) ∧
    execTo State.tick .brk demo = some 0 ∧
    ((requestOne 2).status ≠ .running ∧ programWellFormed programOne = true ∧
      stepTo State.tick (requestOne 2) = some 0) := by decide

/-- Two BRKs, with a limit of 2. -/
theorem witness_BudgetBoundsEveryRun : ∃ s t : State, s.status = .running ∧ s.requests = [] ∧
    s.tick.toNat ≤ s.limit.toNat ∧ core.run 2 s = .next t ∧ t.status = .running ∧ s.tick.toNat + 2 = s.limit.toNat := by
  refine ⟨{ demo with limit := 2, stk := [(65100, 0x00000017), (65101, 0x00000017)] }, _, rfl, rfl, by decide, rfl, rfl, rfl⟩

theorem demo_controlOk : demo.ControlOk := by
  refine ⟨by decide, by decide, ?_, fun _ => by decide⟩
  intro r hr
  rw [List.mem_singleton.1 hr]
  decide

theorem witness_RunningMachineAlwaysSteps : demo.status = .running ∧ demo.ControlOk := ⟨rfl, demo_controlOk⟩

theorem witness_OnlyRunRequestLeavesIdleOrHalted :
    (State.reset.status ≠ .running ∧ State.reset.requests = []) ∧
    ((requestOne 2).status ≠ .running ∧ (requestOne 2).requests ≠ [] ∧ ∃ t, step (requestOne 2) = .next t) :=
  ⟨by decide, by decide, by decide, _, rfl⟩

/-- Power-up's table is well formed; two causes that are not HookHalt; a step. -/
theorem witness_HaltTableDefaultsAndDistinctness : haltCodesWellFormed State.reset.params.haltCodes = true ∧
    (∀ h, Halt.memoryFault ≠ .hookHalt h) ∧ (∀ h, Halt.callDepthExceeded ≠ .hookHalt h) ∧
    ∃ t, step (requestOne 2) = .next t :=
  ⟨by decide, (fun _ h => by cases h), (fun _ h => by cases h), _, rfl⟩

/-- A normal end (code 0), a hook's positive answer, and an internal halt without a hook. -/
theorem witness_OutcomeCodeTellsHowTheRunEnded : haltCodesWellFormed demo.params.haltCodes = true ∧
    demo.status = .running ∧ stepTo haltOf (demoAt 0x00000016 []) = some (.halted, 0, 1, 0) ∧
    stepTo haltOf { demoAt 0x00000017 [] with hook := some [9] } = some (.halted, 9, 1, 65100) ∧
    (demoAt 0x00000018 []).hook = none ∧ stepTo haltOf (demoAt 0x00000018 []) = some (.halted, -2, 1, 65100) := by decide

/-- FRAME, FN and AUX move FW, CW and AW. -/
theorem witness_WindowsMoveOnlyByNamedInstructions : execTo State.fw (.frame 1) demo = some 1 ∧
    execTo State.cw (.fn 0 0) { demo with cw := 9 } = some 0 ∧ execTo State.aw (.aux 7) demo = some 7 := by decide

theorem witness_AllocatorAndLogsChangeOnlyByNamedInstructions : execTo State.cnt (.mkc (f 0) 0) demo = some 1 ∧
    execTo State.printLog (.print (f 0)) (demoAt 0 [(0, 77)]) = some [77] ∧ execTo State.cstk .ret demo = some [] := by decide

/-- A request of `n` words of zero; `n = 65536` is the largest accepted program, 65537 the smallest that is too long. -/
def requestZeros (n : Nat) : State := { State.reset with requests := [⟨List.replicate n 0, 5, none⟩] }

theorem witness_Loader : (requestOne 2).status ≠ .running ∧
    (requestOne 2).requests = ⟨programOne, 2, none⟩ :: [] ∧ 1 ≤ programOne.length ∧ programOne.length ≤ 65536 ∧
    (requestOne 2).params.callDepthMax ≠ some 0 ∧
    programOne = [0x00050000, 0x00000016] ++ [0xFFFD0016] ∧ ([0x00050000, 0x00000016] : List Word).length < 65536 := by decide

theorem witness_Loader_bounds : ∀ n, (requestZeros n).status ≠ .running ∧
    (requestZeros n).requests = ⟨List.replicate n 0, 5, none⟩ :: [] ∧ (List.replicate n (0 : Word)).length = n := by
  intro n
  exact ⟨(fun h => by cases h), rfl, List.length_replicate⟩

/-- A state that meets the three invariants and steps. -/
theorem witness_StepKeeps : (demoAt 0x00000713 []).MemoryOk ∧ (demoAt 0x00000713 []).AllocOk ∧
    (demoAt 0x00000713 []).ControlOk ∧ ∃ t, step (demoAt 0x00000713 []) = .next t := by
  refine ⟨⟨by decide, by decide⟩, State.AllocOk_identity rfl rfl rfl rfl, ?_, _, rfl⟩
  exact ⟨demo_controlOk.tickLe, demo_controlOk.pcLe, demo_controlOk.savedPc, demo_controlOk.stackNe⟩

end Sys2Proof.Tests
end

/-! ## The opcodes the decoder refuses (30_encoding.md R69) -/

namespace Sys2Proof

theorem decode_of_opcode_ge {w : Word} (h : 24 ≤ (opField w).toNat) :
    decode w = .unrecognizedOpcode (opField w) := by
  unfold decode
  split
  case h_25 => rfl
  all_goals omega

theorem decode_of_opcode_lt {w : Word} (h : (opField w).toNat < 24) : ∃ i, decode w = .instr i := by
  generalize hn : (opField w).toNat = n at h
  interval_cases n <;> exact ⟨_, by simp only [decode, hn]; rfl⟩

theorem exists_decode_eq_unrecognizedOpcode_iff {w : Word} :
    (∃ op, decode w = .unrecognizedOpcode op) ↔ 24 ≤ (opField w).toNat := by
  refine ⟨fun ⟨op, hop⟩ => Nat.le_of_not_lt fun hlt => ?_, fun h => ⟨_, decode_of_opcode_ge h⟩⟩
  obtain ⟨i, hi⟩ := decode_of_opcode_lt hlt
  rw [hi] at hop
  cases hop

end Sys2Proof

namespace Sys2Proof.Machine

/-! ## Beginning a step changes TICK and the hook port, nothing else -/

theorem State.tickUp_afterHook (s : State) :
    ∃ hk log, s.tickUp.afterHook = { s with tick := s.tick + 1, hook := hk, hookLog := log } ∧
      (s.hook = none → hk = none ∧ log = s.hookLog) ∧
      (s.hook ≠ none → log = s.hookLog ++ [⟨s.pc.setWidth 16, s.fetchWord⟩]) := by
  cases h : s.hook with
  | none =>
    refine ⟨none, s.hookLog, ?_, fun _ => ⟨rfl, rfl⟩, fun hn => absurd rfl hn⟩
    simp [State.afterHook, State.tickUp, h]
  | some answers =>
    refine ⟨some answers.tail, _, ?_, fun hn => (nomatch hn), fun _ => rfl⟩
    simp only [State.afterHook, State.tickUp_hook, h]
    rfl

/-- A fetched word with an illegal opcode: the hook has answered 0, then DecodeError is taken (R69, R83). -/
theorem step_illegalOpcode {s : State} (hs : s.status = .running) (hb : s.tick.toNat < s.limit.toNat)
    (hp : s.pc.toNat ≤ 65535) (hh : s.hookAnswer = 0) (ho : 24 ≤ (opField s.fetchWord).toNat) :
    step s = .next (s.tickUp.afterHook.raise .decodeError) := by
  rcases step_running_cases hs with
    ⟨hb', -⟩ | ⟨-, hp', -⟩ | ⟨-, -, hh', -⟩ | ⟨-, -, -, ⟨op, -, he⟩ | ⟨i, hi, -⟩⟩
  · have hle : s.limit.toNat ≤ s.tick.toNat := of_decide_eq_true hb'
    omega
  · omega
  · exact absurd hh hh'
  · exact he
  · rw [decode_of_opcode_ge ho] at hi
    cases hi

/-- Settles O5: the decode-error case of the step's inversion; the decoder refuses exactly the opcodes from 24 up. -/
theorem illegalOpcodesRaiseDecodeError : Obligations.IllegalOpcodesRaiseDecodeError := by
  refine ⟨fun _ => exists_decode_eq_unrecognizedOpcode_iff, fun s hs hb hp hh ho => ?_⟩
  obtain ⟨hk, log, hbegin, hport⟩ := s.tickUp_afterHook
  exact ⟨hk, log, by rw [step_illegalOpcode hs hb hp hh ho, hbegin]; rfl, hport⟩

end Sys2Proof.Machine

/-! ## The location of a register reference, by window (40_step_and_addressing.md R80) -/

namespace Sys2Proof

theorem RegRef.ofByte_of_selector {r : Byte} {sel : BitVec 2} (h : r.extractLsb' 6 2 = sel) :
    RegRef.ofByte r = ⟨Window.ofSelector sel, r.extractLsb' 0 6⟩ := by rw [RegRef.ofByte, h]

end Sys2Proof

namespace Sys2Proof.Machine

theorem stackIndex_eq_ite (a : Int) : stackIndex a = if a < 0 ∨ 65535 < a then none else some a.toNat := by
  split
  · exact stackIndex_eq_none.2 (by omega)
  · exact stackIndex_eq_some.2 ⟨by omega, rfl⟩

theorem stackIndex_natCast (n : Nat) : stackIndex n = if 65535 < n then none else some n := by
  split
  · exact stackIndex_eq_none.2 (by omega)
  · exact stackIndex_eq_some.2 ⟨by omega, Int.toNat_natCast n⟩

theorem State.loc_frame (s : State) (off : BitVec 6) : s.loc ⟨.frame, off⟩ =
    if s.fw.toInt + (off.toNat : Int) < 0 ∨ 65535 < s.fw.toInt + (off.toNat : Int) then none
    else some (.stk (s.fw.toInt + (off.toNat : Int)).toNat) := by
  show (stackIndex _).map Loc.stk = _
  rw [stackIndex_eq_ite, apply_ite (Option.map Loc.stk)]
  rfl

theorem State.loc_closure (s : State) (off : BitVec 6) : s.loc ⟨.closure, off⟩ = some (.cp s.cw off) := rfl

theorem State.loc_auxiliary (s : State) (off : BitVec 6) : s.loc ⟨.auxiliary, off⟩ = some (.cp s.aw off) := rfl

theorem State.loc_global (s : State) (off : BitVec 6) : s.loc ⟨.global, off⟩ =
    if 65535 < s.gw.toNat + off.toNat then none else some (.stk (s.gw.toNat + off.toNat)) := by
  show (stackIndex ((s.gw.toNat + off.toNat : Nat) : Int)).map Loc.stk = _
  rw [stackIndex_natCast, apply_ite (Option.map Loc.stk)]
  rfl

/-- Settles O6: the selector names the window, and each window has its own equation for `Loc`. -/
theorem addressingEngineResolvesReferences : Obligations.AddressingEngineResolvesReferences := by
  intro s r
  refine ⟨fun h => ?frame, fun h => ?closure, fun h => ?auxiliary, fun h => ?global⟩ <;>
    rw [RegRef.ofByte_of_selector h]
  case frame => exact s.loc_frame _
  case closure => exact s.loc_closure _
  case auxiliary => exact s.loc_auxiliary _
  case global => exact s.loc_global _

/-! ## Reading and writing one register (40_step_and_addressing.md R81) -/

theorem State.introspect_of_none {s : State} {r : RegRef} (h : s.loc r = none) : s.introspect r = none := by
  simp [State.introspect, h]

theorem State.introspect_of_some {s : State} {r : RegRef} {l : Loc} (h : s.loc r = some l) :
    s.introspect r = some (s.readLoc l) := by
  simp [State.introspect, h]

theorem State.sameMemoryBut_writeLoc (s : State) (l : Loc) (v : Word) : SameMemoryBut l s (s.writeLoc l v) :=
  fun _ hm => s.readLoc_writeLoc_other v hm

theorem State.sameElse_writeLoc (s : State) (l : Loc) (v : Word) : SameElse s (s.writeLoc l v) := by
  simp [SameElse, SameWindows, SameAllocator, SameRun]

/-- An instruction that answers a register write and the advance completes, in the statements' sense. -/
theorem completesWriting_of_exec {i : Instr} {s : State} {l : Loc} {v : Word}
    (h : exec i s = .next (s.writeLoc l v).advance) : CompletesWriting i s l v :=
  ⟨_, h, by simp, fun m hm => (State.readLoc_advance _ m).trans (s.sameMemoryBut_writeLoc l v m hm), by simp,
    s.sameElse_writeLoc l v⟩

/-- An instruction that answers `raise e` takes that halt, in the statements' sense. -/
theorem haltsWith_of_exec {i : Instr} {s : State} {e : Halt} (h : exec i s = .next (s.raise e)) : HaltsWith i s e := h

/-! ## LI and MOV, by what `Loc` answers -/

theorem State.updateReg_of_none {s : State} {x : RegRef} (h : s.loc x = none) (f : Word → Word) :
    s.updateReg x f = s.raise .memoryFault := State.withLoc_none h _

theorem State.updateReg_of_some {s : State} {x : RegRef} {l : Loc} (h : s.loc x = some l) (f : Word → Word) :
    s.updateReg x f = (s.writeLoc l (f (s.readLoc l))).advance := State.withLoc_some h _

theorem State.copyReg_of_none {s : State} {x y : RegRef} (h : s.loc x = none ∨ s.loc y = none) :
    s.copyReg x y = s.raise .memoryFault := by
  rcases s.copyReg_cases x y with ⟨-, he⟩ | ⟨lx, ly, hx, hy, -⟩
  · exact he
  · simp [hx, hy] at h

theorem State.copyReg_of_some {s : State} {x y : RegRef} {lx ly : Loc} (hx : s.loc x = some lx)
    (hy : s.loc y = some ly) : s.copyReg x y = (s.writeLoc lx (s.readLoc ly)).advance :=
  (State.withLoc_some hx _).trans (State.withLoc_some hy _)

theorem zext16_eq_ofNat (imm : Half) : zext16 imm = BitVec.ofNat 32 imm.toNat := (BitVec.ofNat_toNat 32 imm).symm

theorem haltsWith_li {s : State} {x : RegRef} (h : s.loc x = none) (imm : Half) :
    HaltsWith (.li x imm) s .memoryFault :=
  haltsWith_of_exec (by rw [exec_li, State.updateReg_of_none h])

theorem completesWriting_li {s : State} {x : RegRef} {l : Loc} (h : s.loc x = some l) (imm : Half) :
    CompletesWriting (.li x imm) s l (BitVec.ofNat 32 imm.toNat) :=
  completesWriting_of_exec (by rw [exec_li, State.updateReg_of_some h, zext16_eq_ofNat])

theorem haltsWith_mov {s : State} {x y : RegRef} (h : s.loc x = none ∨ s.loc y = none) :
    HaltsWith (.mov x y) s .memoryFault :=
  haltsWith_of_exec (by rw [exec_mov, State.copyReg_of_none h])

theorem completesWriting_mov {s : State} {x y : RegRef} {lx ly : Loc} (hx : s.loc x = some lx)
    (hy : s.loc y = some ly) : CompletesWriting (.mov x y) s lx (s.readLoc ly) :=
  completesWriting_of_exec (by rw [exec_mov, State.copyReg_of_some hx hy])

/-- The value written is read back: a register write moves no window, so the reference keeps its location. -/
theorem State.introspect_writeLoc_same {s : State} {r : RegRef} {l : Loc} (h : s.loc r = some l) (v : Word) :
    (s.writeLoc l v).introspect r = some v := by
  rw [State.introspect_of_some ((s.loc_writeLoc l v r).trans h), State.readLoc_writeLoc_same]

/-- Settles O7: a location out of range faults LI and MOV alike; one in range is the word they write or read. -/
theorem registerWriteChangesOneWord : Obligations.RegisterWriteChangesOneWord := by
  intro s r v
  refine ⟨fun hr => ?fault, fun l hl => ?resolved⟩
  case fault => exact ⟨State.introspect_of_none hr, haltsWith_li hr, fun x => haltsWith_mov (.inr hr)⟩
  case resolved =>
    exact ⟨State.introspect_of_some hl, completesWriting_li hl, fun x m hx => completesWriting_mov hx hl,
      State.introspect_writeLoc_same hl v, s.sameMemoryBut_writeLoc l v, s.writeLoc_pc l v, s.sameElse_writeLoc l v⟩

end Sys2Proof.Machine

/-! ## LI, LU and MOV: the words that decode to them (41_data_movement.md R100 to R102) -/

namespace Sys2Proof

theorem decode_li {w : Word} (h : opField w = 0x00) :
    decode w = .instr (.li (RegRef.ofByte (xField w)) (yzField w)) := by rw [decode, h]; rfl

theorem decode_lu {w : Word} (h : opField w = 0x01) :
    decode w = .instr (.lu (RegRef.ofByte (xField w)) (yzField w)) := by rw [decode, h]; rfl

theorem decode_mov {w : Word} (h : opField w = 0x02) :
    decode w = .instr (.mov (RegRef.ofByte (xField w)) (RegRef.ofByte (yField w))) := by rw [decode, h]; rfl

end Sys2Proof

namespace Sys2Proof.Machine

/-- Settles O9: opcode 0 decodes to LI, and what `Loc` answers decides between the write and the fault. -/
theorem liLoadsZeroExtendedImmediate : Obligations.LiLoadsZeroExtendedImmediate :=
  ⟨fun _ => decode_li, fun _ _ imm => ⟨fun _ hx => completesWriting_li hx imm, fun hx => haltsWith_li hx imm⟩⟩

/-! ## LU, bit by bit (41_data_movement.md R101) -/

theorem getLsbD_upperHalf (imm : Half) (k : Nat) :
    (upperHalf imm).getLsbD k = if k < 16 then false else imm.getLsbD (k - 16) :=
  BitVec.getLsbD_append.trans (by simp)

theorem getLsbD_upperHalf_of_lt (imm : Half) {k : Nat} (h : k < 16) : (upperHalf imm).getLsbD k = false := by
  rw [getLsbD_upperHalf, if_pos h]

theorem getLsbD_upperHalf_add (imm : Half) (k : Nat) : (upperHalf imm).getLsbD (16 + k) = imm.getLsbD k := by
  rw [getLsbD_upperHalf, if_neg (by omega), Nat.add_sub_cancel_left]

theorem getLsbD_or_upperHalf_of_lt (v : Word) (imm : Half) {k : Nat} (h : k < 16) :
    (v ||| upperHalf imm).getLsbD k = v.getLsbD k := by
  rw [BitVec.getLsbD_or, getLsbD_upperHalf_of_lt imm h, Bool.or_false]

theorem getLsbD_or_upperHalf_add (v : Word) (imm : Half) (k : Nat) :
    (v ||| upperHalf imm).getLsbD (16 + k) = (v.getLsbD (16 + k) || imm.getLsbD k) := by
  rw [BitVec.getLsbD_or, getLsbD_upperHalf_add]

theorem haltsWith_lu {s : State} {x : RegRef} (h : s.loc x = none) (imm : Half) :
    HaltsWith (.lu x imm) s .memoryFault :=
  haltsWith_of_exec (by rw [exec_lu, State.updateReg_of_none h])

theorem completesWriting_lu {s : State} {x : RegRef} {l : Loc} (h : s.loc x = some l) (imm : Half) :
    CompletesWriting (.lu x imm) s l (s.readLoc l ||| upperHalf imm) :=
  completesWriting_of_exec (by rw [exec_lu, State.updateReg_of_some h])

/-- Settles O10: the word written is the old one ORed with `{yz, 0x0000}`, whose two halves are read off separately. -/
theorem luOrsImmediateIntoUpperHalf : Obligations.LuOrsImmediateIntoUpperHalf := by
  refine ⟨fun _ => decode_lu, fun s x imm => ⟨fun l hx => ?resolved, fun hx => haltsWith_lu hx imm⟩⟩
  case resolved =>
    exact ⟨_, completesWriting_lu hx imm, fun _ hk => getLsbD_or_upperHalf_of_lt _ imm hk,
      fun k _ => getLsbD_or_upperHalf_add _ imm k⟩

/-- Settles O11: opcode 2 decodes to MOV without reading z; two resolved registers copy, else one of them faults. -/
theorem movCopiesRegister : Obligations.MovCopiesRegister :=
  ⟨fun _ => decode_mov, fun _ _ _ => ⟨fun _ _ hx hy => completesWriting_mov hx hy, fun h => haltsWith_mov h⟩⟩

end Sys2Proof.Machine

/-! ## The three-register form, by what `Loc` answers (42_arithmetic.md R111) -/

namespace Sys2Proof.Machine

theorem State.binop_of_none {s : State} {x y z : RegRef} (h : s.loc x = none ∨ s.loc y = none ∨ s.loc z = none)
    (op : Word → Word → Except Halt Word) : s.binop op x y z = s.raise .memoryFault := by
  rcases s.binop_cases op x y z with ⟨-, he⟩ | ⟨lx, ly, lz, hx, hy, hz, -⟩
  · exact he
  · simp [hx, hy, hz] at h

theorem State.binop_of_ok {s : State} {x y z : RegRef} {lx ly lz : Loc} {op : Word → Word → Except Halt Word} {v : Word}
    (hx : s.loc x = some lx) (hy : s.loc y = some ly) (hz : s.loc z = some lz)
    (hv : op (s.readLoc ly) (s.readLoc lz) = .ok v) : s.binop op x y z = (s.writeLoc lx v).advance := by
  simp only [State.binop, State.withLoc_some hx, State.withLoc_some hy, State.withLoc_some hz, hv]

/-- R111 for every instruction of the form: an operand out of range is its MemoryFault, whatever it computes. -/
theorem haltsWith_of_binop {i : Instr} {s : State} {op : Word → Word → Except Halt Word} {x y z : RegRef}
    (hi : exec i s = .next (s.binop op x y z)) (h : s.loc x = none ∨ s.loc y = none ∨ s.loc z = none) :
    HaltsWith i s .memoryFault :=
  haltsWith_of_exec (by rw [hi, State.binop_of_none h])

/-- R111 for every instruction of the form: with its operands in range, it writes the value it computes. -/
theorem completesWriting_of_binop {i : Instr} {s : State} {op : Word → Word → Except Halt Word} {x y z : RegRef}
    {lx ly lz : Loc} {v : Word} (hi : exec i s = .next (s.binop op x y z)) (hx : s.loc x = some lx)
    (hy : s.loc y = some ly) (hz : s.loc z = some lz) (hv : op (s.readLoc ly) (s.readLoc lz) = .ok v) :
    CompletesWriting i s lx v :=
  completesWriting_of_exec (by rw [hi, State.binop_of_ok hx hy hz hv])

end Sys2Proof.Machine

/-! ## ADD, SUB, MUL, INC and NAND: the words that decode to them (42_arithmetic.md R112 to R114, R117, R118) -/

namespace Sys2Proof

theorem decode_add {w : Word} (h : opField w = 0x05) :
    decode w = .instr (.add (RegRef.ofByte (xField w)) (RegRef.ofByte (yField w)) (RegRef.ofByte (zField w))) := by
  rw [decode, h]; rfl

theorem decode_sub {w : Word} (h : opField w = 0x06) :
    decode w = .instr (.sub (RegRef.ofByte (xField w)) (RegRef.ofByte (yField w)) (RegRef.ofByte (zField w))) := by
  rw [decode, h]; rfl

theorem decode_mul {w : Word} (h : opField w = 0x07) :
    decode w = .instr (.mul (RegRef.ofByte (xField w)) (RegRef.ofByte (yField w)) (RegRef.ofByte (zField w))) := by
  rw [decode, h]; rfl

theorem decode_inc {w : Word} (h : opField w = 0x0A) :
    decode w = .instr (.inc (RegRef.ofByte (xField w)) (yzField w)) := by rw [decode, h]; rfl

theorem decode_nand {w : Word} (h : opField w = 0x0B) :
    decode w = .instr (.nand (RegRef.ofByte (xField w)) (RegRef.ofByte (yField w)) (RegRef.ofByte (zField w))) := by
  rw [decode, h]; rfl

end Sys2Proof

/-! ## ADD, SUB, MUL and INC: the result is the mathematical one, wrapped (42_arithmetic.md R110) -/

namespace Sys2Proof.Machine

theorem aluAdd_eq_ofInt (p q : Word) : aluAdd p q = .ok (BitVec.ofInt 32 (p.toInt + q.toInt)) := by
  rw [aluAdd, BitVec.ofInt_add, BitVec.ofInt_toInt, BitVec.ofInt_toInt]

theorem aluSub_eq_ofInt (p q : Word) : aluSub p q = .ok (BitVec.ofInt 32 (p.toInt - q.toInt)) :=
  congrArg Except.ok (BitVec.eq_of_toInt_eq (BitVec.toInt_sub.trans (BitVec.toInt_ofInt _).symm))

theorem aluMul_eq_ofInt (p q : Word) : aluMul p q = .ok (BitVec.ofInt 32 (p.toInt * q.toInt)) := by
  rw [aluMul, BitVec.ofInt_mul, BitVec.ofInt_toInt, BitVec.ofInt_toInt]

theorem aluInc_eq_ofInt (v : Word) (imm : Half) : aluInc v imm = BitVec.ofInt 32 (v.toInt + imm.toNat) := by
  rw [BitVec.ofInt_add, BitVec.ofInt_toInt, BitVec.ofInt_natCast, ← zext16_eq_ofNat]
  rfl

/-- Settles O15: the form's two rules, each with the wrapped result of its own operation. -/
theorem addSubMulWrapMathematicalResult : Obligations.AddSubMulWrapMathematicalResult := by
  refine ⟨fun _ => decode_add, fun _ => decode_sub, fun _ => decode_mul, fun s x y z =>
    ⟨fun lx ly lz hx hy hz => ?resolved, fun h => ?fault⟩⟩
  case resolved =>
    exact ⟨completesWriting_of_binop (exec_add s x y z) hx hy hz (aluAdd_eq_ofInt _ _),
      completesWriting_of_binop (exec_sub s x y z) hx hy hz (aluSub_eq_ofInt _ _),
      completesWriting_of_binop (exec_mul s x y z) hx hy hz (aluMul_eq_ofInt _ _)⟩
  case fault =>
    exact ⟨haltsWith_of_binop (exec_add s x y z) h, haltsWith_of_binop (exec_sub s x y z) h,
      haltsWith_of_binop (exec_mul s x y z) h⟩

theorem haltsWith_inc {s : State} {x : RegRef} (h : s.loc x = none) (imm : Half) :
    HaltsWith (.inc x imm) s .memoryFault :=
  haltsWith_of_exec (by rw [exec_inc, State.updateReg_of_none h])

theorem completesWriting_inc {s : State} {x : RegRef} {l : Loc} (h : s.loc x = some l) (imm : Half) :
    CompletesWriting (.inc x imm) s l (BitVec.ofInt 32 ((s.readLoc l).toInt + imm.toNat)) :=
  completesWriting_of_exec (by rw [exec_inc, State.updateReg_of_some h, aluInc_eq_ofInt])

/-- Settles O16: opcode 10 decodes to INC, and what `Loc` answers decides between the wrapped sum and the fault. -/
theorem incAddsUnsignedImmediate : Obligations.IncAddsUnsignedImmediate :=
  ⟨fun _ => decode_inc, fun _ _ imm => ⟨fun _ hx => completesWriting_inc hx imm, fun hx => haltsWith_inc hx imm⟩⟩

/-! ## NAND, bit by bit (42_arithmetic.md R118) -/

theorem getLsbD_not_and (p q : Word) {k : Nat} (h : k < 32) :
    (~~~(p &&& q)).getLsbD k = !(p.getLsbD k && q.getLsbD k) := by
  rw [BitVec.getLsbD_not, BitVec.getLsbD_and, decide_eq_true h, Bool.true_and]

/-- Settles O17: the form's two rules; the word NAND writes is read off bit by bit. -/
theorem nandIsBitwise : Obligations.NandIsBitwise := by
  refine ⟨fun _ => decode_nand, fun s x y z =>
    ⟨fun lx ly lz hx hy hz => ?resolved, haltsWith_of_binop (exec_nand s x y z)⟩⟩
  case resolved =>
    exact ⟨_, completesWriting_of_binop (exec_nand s x y z) hx hy hz rfl, fun _ hk => getLsbD_not_and _ _ hk⟩

end Sys2Proof.Machine

/-! ## The one-register acting form, by what `Loc` and the action answer (40_step_and_addressing.md R80) -/

namespace Sys2Proof.Machine

theorem State.actOnReg_of_none {s : State} {x : RegRef} (h : s.loc x = none) (act : Word → Except Halt State) :
    s.actOnReg x act = s.raise .memoryFault := State.withLoc_none h _

theorem State.actOnReg_of_error {s : State} {x : RegRef} {l : Loc} {act : Word → Except Halt State} {e : Halt}
    (hx : s.loc x = some l) (he : act (s.readLoc l) = .error e) : s.actOnReg x act = s.raise e := by
  rw [State.actOnReg, State.withLoc_some hx, he]

theorem State.actOnReg_of_ok {s t : State} {x : RegRef} {l : Loc} {act : Word → Except Halt State}
    (hx : s.loc x = some l) (ht : act (s.readLoc l) = .ok t) : s.actOnReg x act = t.advance := by
  rw [State.actOnReg, State.withLoc_some hx, ht]

/-! ## Retain, by the index and its count (43_closure_allocator.md R133) -/

theorem State.retain_zero (s : State) : s.retain 0 = .ok s := rfl

theorem State.retain_of_free_or_max {s : State} {i : ClosureIx} (hi : i ≠ 0)
    (h : (s.rcOf i).toNat = 0 ∨ (s.rcOf i).toNat = 2 ^ 32 - 1) : s.retain i = .error .refcountViolation := by
  rcases s.retain_cases i with ⟨h0, -⟩ | ⟨-, -, he⟩ | ⟨-, hfree, hmax, -⟩
  · exact absurd h0 hi
  · exact he
  · rcases h with h | h
    · exact absurd (BitVec.eq_of_toNat_eq h) hfree
    · exact absurd (BitVec.eq_of_toNat_eq h) hmax

theorem State.retain_of_live {s : State} {i : ClosureIx} (hi : i ≠ 0) (hpos : 0 < (s.rcOf i).toNat)
    (hlt : (s.rcOf i).toNat < 2 ^ 32 - 1) : s.retain i = .ok (s.setRc i (s.rcOf i + 1)) := by
  rcases s.retain_cases i with ⟨h0, -⟩ | ⟨-, hfree | hmax, -⟩ | ⟨-, -, -, he⟩
  · exact absurd h0 hi
  · simp [hfree] at hpos
  · simp [hmax] at hlt
  · exact he

/-! ## Changing one count -/

@[simp] theorem State.rcOf_advance (s : State) (i : ClosureIx) : s.advance.rcOf i = s.rcOf i := rfl

@[simp] theorem State.readLoc_setRc (s : State) (i : ClosureIx) (n : Word) (l : Loc) :
    (s.setRc i n).readLoc l = s.readLoc l := State.readLoc_congr rfl rfl l

theorem State.rcOf_setRc_same (s : State) (i : ClosureIx) (n : Word) : (s.setRc i n).rcOf i = n := by
  rw [State.rcOf_setRc, if_pos rfl]

theorem State.rcOf_setRc_other (s : State) {i k : ClosureIx} (n : Word) (h : k ≠ i) :
    (s.setRc i n).rcOf k = s.rcOf k := by
  rw [State.rcOf_setRc, if_neg h]

theorem Word.toNat_add_one_of_lt {v : Word} (h : v.toNat < 2 ^ 32 - 1) : (v + 1).toNat = v.toNat + 1 :=
  BitVec.toNat_add_of_lt (show v.toNat + 1 < 2 ^ 32 by omega)

end Sys2Proof.Machine

/-! ## RETAIN (43_closure_allocator.md R137) -/

namespace Sys2Proof

theorem decode_retain {w : Word} (h : opField w = 0x11) :
    decode w = .instr (.retain (RegRef.ofByte (xField w))) := by rw [decode, h]; rfl

end Sys2Proof

namespace Sys2Proof.Machine

theorem haltsWith_retain_of_none {s : State} {x : RegRef} (h : s.loc x = none) :
    HaltsWith (.retain x) s .memoryFault :=
  haltsWith_of_exec (by rw [exec_retain, State.actOnReg_of_none h])

theorem haltsWith_retain_of_error {s : State} {x : RegRef} {l : Loc} {e : Halt} (hx : s.loc x = some l)
    (he : s.retain (closureIndex (s.readLoc l)) = .error e) : HaltsWith (.retain x) s e :=
  haltsWith_of_exec (by rw [exec_retain, State.actOnReg_of_error hx he])

theorem exec_retain_of_ok {s t : State} {x : RegRef} {l : Loc} (hx : s.loc x = some l)
    (ht : s.retain (closureIndex (s.readLoc l)) = .ok t) : exec (.retain x) s = .next t.advance := by
  rw [exec_retain, State.actOnReg_of_ok hx ht]

/-- Settles O24: what `Loc` answers decides the MemoryFault; then the index and its count decide what Retain does. -/
theorem retainIncrementsLiveCount : Obligations.RetainIncrementsLiveCount := by
  refine ⟨fun _ => decode_retain, fun s x => ⟨haltsWith_retain_of_none, fun l hx =>
    ⟨fun h0 => ?null, fun hi h => ?violation, fun hi hpos hlt => ?live⟩⟩⟩
  case null => exact exec_retain_of_ok hx ((congrArg s.retain h0).trans s.retain_zero)
  case violation => exact haltsWith_retain_of_error hx (State.retain_of_free_or_max hi h)
  case live =>
    refine ⟨_, exec_retain_of_ok hx (State.retain_of_live hi hpos hlt), ?count, ?others, ?frame⟩
    case count => rw [State.rcOf_advance, closureIndex, State.rcOf_setRc_same, Word.toNat_add_one_of_lt hlt]
    case others => exact fun k hk => s.rcOf_setRc_other _ hk
    case frame => simp [SameMemory, SameWindows, SameRun]

end Sys2Proof.Machine

/-! ## What calls and returns save, restore and leave (44_call_return.md R152, R153, R156) -/

namespace Sys2Proof.Machine

/-- What no call and no return touches: AW, GW, TICK, both spaces and the allocator. -/
def KeptByCalls (s t : State) : Prop :=
  t.aw = s.aw ∧ t.gw = s.gw ∧ t.tick = s.tick ∧ SameMemory s t ∧ SameAllocator s t

/-- A call pushes exactly the caller's PC, FW and CW, or halts and pushes nothing. -/
def PushesOrHalts (s t : State) : Prop :=
  t.cstk = ⟨s.pc, s.fw, s.cw⟩ :: s.cstk ∨ (t.status = .halted ∧ t.cstk = s.cstk)

theorem State.keptByCalls_raise (s : State) (e : Halt) : KeptByCalls s (s.raise e) :=
  ⟨rfl, rfl, rfl, s.readLoc_raise e, rfl, rfl, rfl, rfl⟩

theorem State.keptByCalls_call (s : State) (entry : Half) (clo : ClosureIx) (size : Byte) :
    KeptByCalls s (s.call entry clo size) := by
  rcases s.call_cases entry clo size with ⟨-, h⟩ | ⟨-, h⟩ <;> rw [h]
  · exact s.keptByCalls_raise _
  · exact ⟨rfl, rfl, rfl, State.readLoc_congr rfl rfl, rfl, rfl, rfl, rfl⟩

theorem State.keptByCalls_popRecord (s : State) (f : Frame) (rest : List Frame) :
    KeptByCalls s (s.popRecord f rest) :=
  ⟨by simp, by simp, by simp, State.readLoc_congr (by simp) (by simp), by simp, by simp, by simp, by simp⟩

theorem State.pushesOrHalts_raise (s : State) (e : Halt) : PushesOrHalts s (s.raise e) := .inr ⟨rfl, rfl⟩

theorem State.pushesOrHalts_call (s : State) (entry : Half) (clo : ClosureIx) (size : Byte) :
    PushesOrHalts s (s.call entry clo size) := by
  rcases s.call_cases entry clo size with ⟨-, h⟩ | ⟨-, h⟩ <;> rw [h]
  · exact s.pushesOrHalts_raise _
  · exact .inl rfl

/-- Below the Loader's record a return continues at the word after the call (R156). -/
theorem State.popRecord_pc_of_ne_nil (s : State) (f : Frame) {rest : List Frame} (h : rest ≠ []) :
    (s.popRecord f rest).pc = f.pc + 1 := by
  cases rest with
  | nil => exact absurd rfl h
  | cons g rest => rfl

theorem exec_fn_saves {size : Byte} {entry : Half} {s t : State} (h : exec (.fn size entry) s = .next t) :
    KeptByCalls s t ∧ PushesOrHalts s t := by
  cases h
  exact ⟨s.keptByCalls_call entry 0 size, s.pushesOrHalts_call entry 0 size⟩

/-- FNRX is `Call` once its descriptor is read; the read itself can only fault. -/
theorem exec_fnrx_saves {size : Byte} {y : RegRef} {s t : State} (h : exec (.fnrx size y) s = .next t) :
    KeptByCalls s t ∧ PushesOrHalts s t := by
  rw [exec_fnrx] at h
  cases hy : s.loc y with
  | none =>
    rw [State.withLoc_none hy] at h
    cases h
    exact ⟨s.keptByCalls_raise _, s.pushesOrHalts_raise _⟩
  | some l =>
    rw [State.withLoc_some hy] at h
    cases h
    exact ⟨s.keptByCalls_call _ _ _, s.pushesOrHalts_call _ _ _⟩

/-- A RET that answers has a record to pop. -/
theorem exec_ret_pops {s t : State} (h : exec .ret s = .next t) :
    ∃ f rest, s.cstk = f :: rest ∧ t = s.popRecord f rest := by
  cases hc : s.cstk with
  | nil =>
    rw [exec_ret_nil hc] at h
    cases h
  | cons f rest =>
    rw [exec_ret_cons hc] at h
    cases h
    exact ⟨f, rest, rfl, rfl⟩

theorem exec_ret_restores {s t : State} (h : exec .ret s = .next t) :
    KeptByCalls s t ∧
      ∃ f, s.cstk = f :: t.cstk ∧ t.fw = f.fw ∧ t.cw = f.cw ∧ (t.cstk ≠ [] → t.pc = f.pc + 1) := by
  obtain ⟨f, rest, hc, rfl⟩ := exec_ret_pops h
  refine ⟨s.keptByCalls_popRecord f rest, f, by simp [hc], by simp, by simp, fun hne => ?_⟩
  rw [State.popRecord_cstk] at hne
  exact s.popRecord_pc_of_ne_nil f hne

/-- Settles O35: FN and FNRX are `Call`, which pushes one record or halts; RET is the pop of the newest record. -/
theorem callsSaveExactlyPcFwCw : Obligations.CallsSaveExactlyPcFwCw := by
  rintro i s t h (⟨size, entry, rfl⟩ | ⟨size, y, rfl⟩ | rfl)
  case inl =>
    obtain ⟨⟨haw, hgw, htick, hmem, halloc⟩, hpush⟩ := exec_fn_saves h
    exact ⟨haw, hgw, htick, hmem, halloc, fun _ => hpush, nofun⟩
  case inr.inl =>
    obtain ⟨⟨haw, hgw, htick, hmem, halloc⟩, hpush⟩ := exec_fnrx_saves h
    exact ⟨haw, hgw, htick, hmem, halloc, fun _ => hpush, nofun⟩
  case inr.inr =>
    obtain ⟨⟨haw, hgw, htick, hmem, halloc⟩, hrestore⟩ := exec_ret_restores h
    exact ⟨haw, hgw, htick, hmem, halloc, fun hne => absurd rfl hne, fun _ => hrestore⟩

end Sys2Proof.Machine

/-! ## BRK (45_system.md R171) -/

namespace Sys2Proof

theorem decode_brk {w : Word} (h : opField w = 0x17) : decode w = .instr .brk := by rw [decode, h]; rfl

end Sys2Proof

namespace Sys2Proof.Machine

/-- A fetched word that decodes: the hook has answered 0, then the instruction runs (R83). -/
theorem step_decodedInstruction {s : State} {i : Instr} (hs : s.status = .running)
    (hb : s.tick.toNat < s.limit.toNat) (hp : s.pc.toNat ≤ 65535) (hh : s.hookAnswer = 0)
    (hi : decode s.fetchWord = .instr i) : step s = exec i s.tickUp.afterHook := by
  rcases step_running_cases hs with
    ⟨hb', -⟩ | ⟨-, hp', -⟩ | ⟨-, -, hh', -⟩ | ⟨-, -, -, ⟨op, hop, -⟩ | ⟨j, hj, he⟩⟩
  · have hle : s.limit.toNat ≤ s.tick.toNat := of_decide_eq_true hb'
    omega
  · omega
  · exact absurd hh hh'
  · rw [hi] at hop
    cases hop
  · rw [hi] at hj
    cases hj
    exact he

/-- Settles O38: the step of a fetched BRK is the advance, after TICK and the hook port have changed. -/
theorem brkOnlyAdvances : Obligations.BrkOnlyAdvances := by
  refine ⟨fun _ => decode_brk, exec_brk, fun s hs hb hp hh ho => ?step⟩
  case step =>
    obtain ⟨hk, log, hbegin, hport⟩ := s.tickUp_afterHook
    exact ⟨hk, log, by rw [step_decodedInstruction hs hb hp hh (decode_brk ho), exec_brk, hbegin]; rfl, hport⟩

end Sys2Proof.Machine

/-! ## TICK: no instruction writes it, a step with budget left adds one, the Loader clears it (70_reset_and_hazards.md R228) -/

namespace Sys2Proof.Machine

theorem State.allocate_tick {s t : State} {i : ClosureIx} (h : s.allocate = .ok (i, t)) : t.tick = s.tick := by
  obtain ⟨-, -, rfl⟩ := State.allocate_eq_ok.1 h
  simp

theorem State.retain_tick {s t : State} {i : ClosureIx} (h : s.retain i = .ok t) : t.tick = s.tick := by
  rcases s.retain_cases i with ⟨-, e⟩ | ⟨-, -, e⟩ | ⟨-, -, -, e⟩ <;> cases e.symm.trans h <;> rfl

theorem State.release_tick {s t : State} {i : ClosureIx} (h : s.release i = .ok t) : t.tick = s.tick := by
  rcases s.release_cases i with ⟨-, e⟩ | ⟨-, -, e⟩ | ⟨-, -, e⟩ | ⟨-, -, -, e⟩ <;> cases e.symm.trans h <;> rfl

theorem ExecEffect.tick_eq {s t : State} (h : ExecEffect s t) : t.tick = s.tick := by
  cases h with
  | closure i u l v ha => simp [State.allocate_tick ha]
  | retain i u hr => simp [State.retain_tick hr]
  | release i u hr => simp [State.release_tick hr]
  | halt | store | print | aux | frame | call | ret | advance => simp

theorem exec_tick {i : Instr} {s t : State} (h : exec i s = .next t) : t.tick = s.tick :=
  (exec_effect h).tick_eq

/-- Past the budget check every ending of a step, halt or instruction, keeps the one increment of R83 line 2. -/
theorem step_running_tick {s t : State} (hs : s.status = .running) (hb : s.tick.toNat < s.limit.toNat)
    (h : step s = .next t) : t.tick = s.tick + 1 := by
  rcases step_running_cases hs with
    ⟨hspent, -⟩ | ⟨-, -, e⟩ | ⟨-, -, -, e⟩ | ⟨-, -, -, ⟨op, -, e⟩ | ⟨i, -, e⟩⟩
  · have hle : s.limit.toNat ≤ s.tick.toNat := of_decide_eq_true hspent
    omega
  · cases e.symm.trans h
    rfl
  · cases e.symm.trans h
    simp
  · cases e.symm.trans h
    simp
  · simp [exec_tick (e.symm.trans h)]

/-- TICK is below LIMIT, so the increment does not wrap. -/
theorem State.toNat_tick_add_one {s : State} (hb : s.tick.toNat < s.limit.toNat) :
    (s.tick + 1).toNat = s.tick.toNat + 1 :=
  Word.toNat_add_one_of_lt (by omega)

/-- The step of a machine that is not RUNNING performs the oldest run request (R214). -/
theorem step_request {s : State} {q : RunRequest} {rest : List RunRequest} (hs : s.status ≠ .running)
    (hq : s.requests = q :: rest) : step s = .next ({ s with requests := rest }.runRequest q) := by
  rw [step_not_running hs, State.awaitRequest, hq]

theorem State.runRequest_of_wellFormed (s : State) {q : RunRequest} (h : programWellFormed q.program = true) :
    s.runRequest q = (s.loadImage q).call (trailerEntry q.program) 0 0 := if_pos h

/-- An accepted program starts with TICK 0: the first call, taken or refused, costs none. -/
theorem State.runRequest_tick (s : State) {q : RunRequest} (h : programWellFormed q.program = true) :
    (s.runRequest q).tick = 0 := by
  obtain ⟨-, -, htick, -⟩ := (s.loadImage q).keptByCalls_call (trailerEntry q.program) 0 0
  rw [s.runRequest_of_wellFormed h, htick]
  rfl

/-- Settles O43: the step's inversion for the increment, `exec`'s for the instructions, the Loader's for the start. -/
theorem everyInstructionCostsOneTick : Obligations.EveryInstructionCostsOneTick := by
  refine ⟨fun s t hs hb h => ?increment, fun i s t h => exec_tick h, fun s t q rest hs hq hw h => ?start⟩
  case increment => rw [step_running_tick hs hb h, State.toNat_tick_add_one hb]
  case start =>
    cases (step_request hs hq).symm.trans h
    exact State.runRequest_tick _ hw

end Sys2Proof.Machine

/-! ## The Loader's entry (70_reset_and_hazards.md R213) -/

namespace Sys2Proof

theorem yzField_toNat (w : Word) : (yzField w).toNat = w.toNat / 65536 := by
  rw [yzField, BitVec.extractLsb'_toNat, Nat.shiftRight_eq_div_pow, Nat.mod_eq_of_lt (by omega)]

theorem programWellFormed_iff {p : List Word} : programWellFormed p = true ↔ 1 ≤ p.length ∧ p.length ≤ 65536 :=
  decide_eq_true_iff

end Sys2Proof

namespace Sys2Proof.Machine

theorem trailerEntry_append_singleton (p : List Word) (w : Word) : trailerEntry (p ++ [w]) = yzField w :=
  congrArg yzField List.getLastD_concat

/-- The Loader empties CSTK, so only a depth limit of 0 refuses its first call (R153). -/
theorem State.callDepthReached_loadImage {s : State} (h : s.params.callDepthMax ≠ some 0) (q : RunRequest) :
    (s.loadImage q).callDepthReached = false := by
  refine State.callDepthReached_eq_false.2 fun d hd => Nat.pos_of_ne_zero ?_
  rintro rfl
  exact h hd

/-- A call below the depth limit enters at its entry address, as an unsigned index, and leaves STATUS. -/
theorem State.call_enters {s : State} (h : s.callDepthReached = false) (entry : Half) (clo : ClosureIx) (size : Byte) :
    (s.call entry clo size).pc.toNat = entry.toNat ∧ (s.call entry clo size).status = s.status := by
  rcases s.call_cases entry clo size with ⟨hd, -⟩ | ⟨-, e⟩
  · cases h.symm.trans hd
  · rw [e]
    exact ⟨BitVec.toNat_setWidth_of_le (by decide), rfl⟩

/-- Settles O52: the step is the Loader's, whose first call enters at the upper half of the last word. -/
theorem loaderEntersAtTrailerOperand : Obligations.LoaderEntersAtTrailerOperand := by
  intro s q rest p w hs hq hp hlen hd
  have hw : programWellFormed q.program = true := programWellFormed_iff.2 (by simp [hp]; omega)
  obtain ⟨hpc, hstatus⟩ := State.call_enters (State.callDepthReached_loadImage (s := { s with requests := rest }) hd q)
    (trailerEntry q.program) 0 0
  refine ⟨_, step_request hs hq, ?_⟩
  rw [State.runRequest_of_wellFormed _ hw, hpc, hstatus, hp, trailerEntry_append_singleton, yzField_toNat]
  exact ⟨rfl, rfl⟩

end Sys2Proof.Machine

/-! ## Decode and encode are inverse (30_encoding.md R61, R65, R68, R72) -/

namespace Sys2Proof

theorem decode_encode (i : Instr) : decode (encode i) = .instr i := by
  cases i with
  | li | lu | inc | frame | mkc | fn =>
    simp [encode, decode, opField_packWide, xField_packWide, yzField_packWide]
  | mov | ld | st | add | sub | mul | div | mod | nand | shl | shr | print | retain | release | aux | fnrx | ret
  | brk =>
    simp [encode, decode, opField_pack, xField_pack, yField_pack, zField_pack]

/-- Settles O2: each encoding packs its operands in one of the two layouts, and each field read gives one back. -/
theorem decodeOfEncodeIsIdentity : Obligations.DecodeOfEncodeIsIdentity := decode_encode

theorem pack_eq_iff {op x y z : Byte} {w : Word} :
    pack op x y z = w ↔ opField w = op ∧ xField w = x ∧ yField w = y ∧ zField w = z := by
  constructor
  · rintro rfl
    exact ⟨opField_pack op x y z, xField_pack op x y z, yField_pack op x y z, zField_pack op x y z⟩
  · rintro ⟨rfl, rfl, rfl, rfl⟩
    exact pack_fields w

theorem packWide_eq_iff {op x : Byte} {yz : Half} {w : Word} :
    packWide op x yz = w ↔ opField w = op ∧ xField w = x ∧ yzField w = yz := by
  constructor
  · rintro rfl
    exact ⟨opField_packWide op x yz, xField_packWide op x yz, yzField_packWide op x yz⟩
  · rintro ⟨rfl, rfl, rfl⟩
    exact packWide_fields w

/-- What column `-` of R65 asks of a word, in the decoder's names for its fields. -/
theorem wordCanonical_iff {w : Word} :
    wordCanonical w = true ↔ (opField w).toNat ≤ 23 ∧
      if (opField w).toNat = 2 ∨ (opField w).toNat = 21 then zField w = 0
      else if (opField w).toNat = 14 ∨ (opField w).toNat = 17 ∨ (opField w).toNat = 18 ∨ (opField w).toNat = 19 then
        yField w = 0 ∧ zField w = 0
      else if (opField w).toNat = 15 then xField w = 0
      else if (opField w).toNat = 22 ∨ (opField w).toNat = 23 then xField w = 0 ∧ yField w = 0 ∧ zField w = 0
      else True := by
  rw [← pack_fields w, Laws.EncodesCanonically.ofPack, pack_fields, Bool.and_eq_true, decide_eq_true_eq]
  split_ifs <;> simp only [decide_eq_true_eq]

/-- Settles O3: opcode by opcode, the encoding packs the fields the decoder read, and the unread ones are 0. -/
theorem encodeOfDecodeOnCanonicalWords : Obligations.EncodeOfDecodeOnCanonicalWords := by
  intro w i hw hd
  obtain ⟨hop, hunused⟩ := wordCanonical_iff.1 hw
  generalize hn : (opField w).toNat = n at hop hunused
  have hfield : opField w = BitVec.ofNat 8 n := by rw [← hn, BitVec.ofNat_toNat, BitVec.setWidth_eq]
  interval_cases n
  all_goals
    simp only [decode, hn, Decoded.instr.injEq] at hd
    subst hd
    simp_all [encode, pack_eq_iff, packWide_eq_iff]

/-! ## Fields no format reads (30_encoding.md R65, R68; decision D24) -/

/-- Settles O1: the decoder is evaluated on each of the eleven words. -/
theorem specExampleWordsDecode : Obligations.SpecExampleWordsDecode := by
  unfold Obligations.SpecExampleWordsDecode
  decide

theorem yzField_pack (op x y z : Byte) : yzField (pack op x y z) = z ++ y := by
  apply BitVec.eq_of_getLsbD_eq
  intro i hi
  simp only [yzField, pack]
  grind

/-- Settles O4: with the opcode fixed, the decoder's arm reads only fields in which the two words agree. -/
theorem unusedFieldsAreIgnored : Obligations.UnusedFieldsAreIgnored := by
  intro op x y z x' y' z'
  simp only [decode, opField_pack, xField_pack, yField_pack, zField_pack, yzField_pack, List.mem_cons, List.not_mem_nil,
    or_false]
  refine ⟨?notZ, ?notYZ, ?notX, ?none⟩
  case notZ => rintro (h | h) <;> simp only [h]
  case notYZ => rintro (h | h | h | h) <;> simp only [h]
  case notX => exact fun h => by simp only [h]
  case none => rintro (h | h) <;> simp only [h]

end Sys2Proof

/-! ## The allocator's three operations change the allocator's registers only (43_closure_allocator.md R132 to R134) -/

namespace Sys2Proof.Machine

/-- Nothing but RC, PERM, POS, CNT and the election counter differs. -/
def ChangesAllocatorOnly (s t : State) : Prop :=
  t = { s with rc := t.rc, perm := t.perm, pos := t.pos, cnt := t.cnt, elections := t.elections }

theorem State.allocate_only {s t : State} {i : ClosureIx} (h : s.allocate = .ok (i, t)) : ChangesAllocatorOnly s t := by
  obtain ⟨-, -, rfl⟩ := State.allocate_eq_ok.1 h
  unfold ChangesAllocatorOnly State.elect
  split <;> rfl

theorem State.retain_only {s t : State} {i : ClosureIx} (h : s.retain i = .ok t) : ChangesAllocatorOnly s t := by
  rcases s.retain_cases i with ⟨-, e⟩ | ⟨-, -, e⟩ | ⟨-, -, -, e⟩ <;> cases e.symm.trans h <;> rfl

theorem State.release_only {s t : State} {i : ClosureIx} (h : s.release i = .ok t) : ChangesAllocatorOnly s t := by
  rcases s.release_cases i with ⟨-, e⟩ | ⟨-, -, e⟩ | ⟨-, -, e⟩ | ⟨-, -, -, e⟩ <;> cases e.symm.trans h <;> rfl

namespace ChangesAllocatorOnly

variable {s t : State} (h : ChangesAllocatorOnly s t)
include h

theorem read_eq {α : Type} (f : State → α) :
    f t = f { s with rc := t.rc, perm := t.perm, pos := t.pos, cnt := t.cnt, elections := t.elections } :=
  congrArg f h

theorem sameMemory : SameMemory s t := State.readLoc_congr (h.read_eq State.stk) (h.read_eq State.cp)

theorem sameWindows : SameWindows s t :=
  ⟨h.read_eq State.fw, h.read_eq State.cw, h.read_eq State.aw, h.read_eq State.gw⟩

theorem sameRun : SameRun s t :=
  ⟨h.read_eq State.tick, h.read_eq State.limit, h.read_eq State.status, h.read_eq State.code, h.read_eq State.params,
    h.read_eq State.hook, h.read_eq State.hookLog, h.read_eq State.requests⟩

end ChangesAllocatorOnly

/-! ## How an instruction can end a run (60_exceptions.md R182) -/

/-- The run status stands, or one of the listed halts has been taken. -/
def EndsOnlyWith (es : List Halt) (s t : State) : Prop := t.status = s.status ∨ ∃ e ∈ es, t = s.raise e

theorem EndsOnlyWith.raise (s : State) {es : List Halt} {e : Halt} (h : e ∈ es) : EndsOnlyWith es s (s.raise e) :=
  .inr ⟨e, h, rfl⟩

theorem State.updateReg_ends (s : State) (x : RegRef) (f : Word → Word) :
    EndsOnlyWith [.memoryFault] s (s.updateReg x f) := by
  rcases s.updateReg_cases x f with ⟨-, h⟩ | ⟨lx, -, h⟩ <;> rw [h]
  · exact .raise s (by simp)
  · exact .inl (by simp)

theorem State.copyReg_ends (s : State) (x y : RegRef) : EndsOnlyWith [.memoryFault] s (s.copyReg x y) := by
  rcases s.copyReg_cases x y with ⟨-, h⟩ | ⟨lx, ly, -, -, h⟩ <;> rw [h]
  · exact .raise s (by simp)
  · exact .inl (by simp)

theorem State.loadStack_ends (s : State) (x y : RegRef) (d : Byte) :
    EndsOnlyWith [.memoryFault] s (s.loadStack x y d) := by
  rcases s.loadStack_cases x y d with h | ⟨lx, ly, a, -, -, -, h⟩ <;> rw [h]
  · exact .raise s (by simp)
  · exact .inl (by simp)

theorem State.storeStack_ends (s : State) (x : RegRef) (d : Byte) (z : RegRef) :
    EndsOnlyWith [.memoryFault] s (s.storeStack x d z) := by
  rcases s.storeStack_cases x d z with h | ⟨lx, lz, a, -, -, -, h⟩ <;> rw [h]
  · exact .raise s (by simp)
  · exact .inl (by simp)

theorem State.binop_ends (s : State) {op : Word → Word → Except Halt Word} {es : List Halt}
    (hop : ∀ p q e, op p q = .error e → e ∈ es) (x y z : RegRef) :
    EndsOnlyWith (.memoryFault :: es) s (s.binop op x y z) := by
  rcases s.binop_cases op x y z with ⟨-, h⟩ | ⟨lx, ly, lz, -, -, -, ⟨e, he, h⟩ | ⟨v, -, h⟩⟩ <;> rw [h]
  · exact .raise s (by simp)
  · exact .raise s (List.mem_cons_of_mem _ (hop _ _ _ he))
  · exact .inl (by simp)

theorem State.binop_ends_of_ok (s : State) {op : Word → Word → Except Halt Word} (hop : ∀ p q, ∃ v, op p q = .ok v)
    (x y z : RegRef) : EndsOnlyWith [.memoryFault] s (s.binop op x y z) :=
  s.binop_ends (fun p q e he => by
    obtain ⟨v, hv⟩ := hop p q
    cases hv.symm.trans he) x y z

theorem aluDiv_error {p q : Word} {e : Halt} (h : aluDiv p q = .error e) : e ∈ [Halt.divideByZero] := by
  unfold aluDiv at h
  split_ifs at h
  cases h
  simp

theorem aluMod_error {p q : Word} {e : Halt} (h : aluMod p q = .error e) : e ∈ [Halt.divideByZero] := by
  unfold aluMod at h
  split_ifs at h
  cases h
  simp

theorem State.actOnReg_ends (s : State) {act : Word → Except Halt State} {es : List Halt}
    (herror : ∀ v e, act v = .error e → e ∈ es) (hok : ∀ v t, act v = .ok t → t.status = s.status) (x : RegRef) :
    EndsOnlyWith (.memoryFault :: es) s (s.actOnReg x act) := by
  rcases s.actOnReg_cases x act with ⟨-, h⟩ | ⟨lx, -, ⟨e, he, h⟩ | ⟨t, ht, h⟩⟩ <;> rw [h]
  · exact .raise s (by simp)
  · exact .raise s (List.mem_cons_of_mem _ (herror _ _ he))
  · exact .inl (show t.status = s.status from hok _ _ ht)

theorem State.retain_error {s : State} {i : ClosureIx} {e : Halt} (h : s.retain i = .error e) :
    e ∈ [Halt.refcountViolation] := by
  rcases s.retain_cases i with ⟨-, h'⟩ | ⟨-, -, h'⟩ | ⟨-, -, -, h'⟩ <;> cases h'.symm.trans h
  simp

theorem State.release_error {s : State} {i : ClosureIx} {e : Halt} (h : s.release i = .error e) :
    e ∈ [Halt.refcountViolation] := by
  rcases s.release_cases i with ⟨-, h'⟩ | ⟨-, -, h'⟩ | ⟨-, -, h'⟩ | ⟨-, -, -, h'⟩ <;> cases h'.symm.trans h
  simp

theorem State.makeClosure_ends (s : State) (x : RegRef) (p : Half) :
    EndsOnlyWith [.memoryFault, .allocExhausted] s (s.makeClosure x p) := by
  rcases s.makeClosure_cases x p with ⟨-, h⟩ | ⟨l, -, -, h⟩ | ⟨l, i, t, m, -, ha, -, h⟩ <;> rw [h]
  · exact .raise s (by simp)
  · exact .raise s (by simp)
  · exact .inl (by simp [(State.allocate_only ha).read_eq State.status])

theorem State.call_ends (s : State) {es : List Halt} (he : .callDepthExceeded ∈ es) (entry : Half) (clo : ClosureIx)
    (size : Byte) : EndsOnlyWith es s (s.call entry clo size) := by
  rcases s.call_cases entry clo size with ⟨-, h⟩ | ⟨-, h⟩ <;> rw [h]
  · exact .raise s he
  · exact .inl rfl

/-- Inversion of `exec` for the ends of a run: the status stands, the instruction takes a halt of its own row of R182,
or it is the RET of the last record. -/
theorem exec_ends {i : Instr} {s t : State} (h : exec i s = .next t) :
    EndsOnlyWith (raisable i) s t ∨ (i = .ret ∧ ∃ f, s.cstk = [f] ∧ t = s.popRecord f []) := by
  cases i with
  | li | lu | inc => cases h; exact .inl (s.updateReg_ends _ _)
  | mov x y => cases h; exact .inl (s.copyReg_ends x y)
  | ld x y d => cases h; exact .inl (s.loadStack_ends x y d)
  | st x d z => cases h; exact .inl (s.storeStack_ends x d z)
  | add | sub | mul | nand | shl | shr => cases h; exact .inl (s.binop_ends_of_ok (fun _ _ => ⟨_, rfl⟩) _ _ _)
  | div x y z => cases h; exact .inl (s.binop_ends (fun _ _ _ => aluDiv_error) x y z)
  | mod x y z => cases h; exact .inl (s.binop_ends (fun _ _ _ => aluMod_error) x y z)
  | print x =>
    cases h
    exact .inl (s.actOnReg_ends (es := []) (fun _ _ he => by cases he) (fun _ _ ht => by cases ht; rfl) x)
  | mkc x p => cases h; exact .inl (s.makeClosure_ends x p)
  | retain x =>
    cases h
    exact .inl (s.actOnReg_ends (fun _ _ => State.retain_error)
      (fun _ _ ht => (State.retain_only ht).read_eq State.status) x)
  | release x =>
    cases h
    exact .inl (s.actOnReg_ends (fun _ _ => State.release_error)
      (fun _ _ ht => (State.release_only ht).read_eq State.status) x)
  | frame | aux | brk => cases h; exact .inl (.inl rfl)
  | fn n e => cases h; exact .inl (s.call_ends (by simp [raisable]) _ _ _)
  | fnrx n y =>
    rw [exec_fnrx] at h
    cases hy : s.loc y with
    | none => rw [State.withLoc_none hy] at h; cases h; exact .inl (.raise s (by simp [raisable]))
    | some l => rw [State.withLoc_some hy] at h; cases h; exact .inl (s.call_ends (by simp [raisable]) _ _ _)
  | ret =>
    obtain ⟨f, rest, hc, rfl⟩ := exec_ret_pops h
    cases rest with
    | nil => exact .inr ⟨rfl, f, hc, rfl⟩
    | cons g rest => exact .inl (.inl rfl)

theorem exec_halted {i : Instr} {s t : State} (hs : s.status = .running) (h : exec i s = .next t)
    (ht : t.status = .halted) :
    (∃ e ∈ raisable i, t = s.raise e) ∨ (i = .ret ∧ ∃ f, s.cstk = [f] ∧ t = s.popRecord f []) := by
  rcases exec_ends h with (hsame | hraise) | hret
  · rw [hsame, hs] at ht
    cases ht
  · exact .inl hraise
  · exact .inr hret

/-- Settles O42: the inversion of a halting `exec`, read at CODE. -/
theorem instructionsRaiseOnlyTheirOwnHalts : Obligations.InstructionsRaiseOnlyTheirOwnHalts := by
  intro i s t hs h ht
  rcases exec_halted hs h ht with ⟨e, he, rfl⟩ | ⟨hi, f, hc, rfl⟩
  · exact .inl ⟨e, he, rfl⟩
  · exact .inr ⟨hi, rfl, f, hc⟩

/-! ## How a step can end a run (60_exceptions.md R180, R186, R187) -/

theorem State.budgetSpent_iff {s : State} : s.budgetSpent = true ↔ s.limit.toNat ≤ s.tick.toNat := decide_eq_true_iff

theorem State.budgetSpent_eq_false {s : State} : s.budgetSpent = false ↔ s.tick.toNat < s.limit.toNat :=
  decide_eq_false_iff_not.trans Nat.not_le

/-- The ways a step of a RUNNING machine ends the run, in the order of R83. -/
inductive HaltingStep (s : State) : State → Prop where
  | budget (h : s.budgetSpent = true) : HaltingStep s (s.raise .budgetExhausted)
  | fetch : HaltingStep s (s.tickUp.raise .memoryFault)
  | hook (h : s.hookAnswer ≠ 0) : HaltingStep s (s.tickUp.afterHook.raise (.hookHalt s.hookAnswer))
  | internal (e : Halt) (h : ∀ v, e ≠ .hookHalt v) : HaltingStep s (s.tickUp.afterHook.raise e)
  | ret (f : Frame) (hc : s.cstk = [f]) (hd : decode s.fetchWord = .instr .ret) :
      HaltingStep s (s.tickUp.afterHook.popRecord f [])

theorem ne_hookHalt_of_mem_raisable {i : Instr} {e : Halt} (h : e ∈ raisable i) (v : Word) : e ≠ .hookHalt v := by
  rintro rfl
  cases i <;> simp [raisable] at h

theorem step_halting {s t : State} (hs : s.status = .running) (h : step s = .next t) (ht : t.status = .halted) :
    HaltingStep s t := by
  rcases step_running_cases hs with
    ⟨hb, e⟩ | ⟨-, -, e⟩ | ⟨-, -, hh, e⟩ | ⟨-, -, -, ⟨op, -, e⟩ | ⟨i, hi, e⟩⟩
  · cases e.symm.trans h
    exact .budget hb
  · cases e.symm.trans h
    exact .fetch
  · cases e.symm.trans h
    exact .hook hh
  · cases e.symm.trans h
    exact .internal _ (by simp)
  · rcases exec_halted (by simp [hs]) (e.symm.trans h) ht with ⟨e, he, rfl⟩ | ⟨rfl, f, hc, rfl⟩
    · exact .internal e (ne_hookHalt_of_mem_raisable he)
    · exact .ret f (by simpa using hc) hi

/-- Settles O41: each way to end a run is read against the state it started from; beginning a step has changed TICK and
the hook port only. -/
theorem haltsArePrecise : Obligations.HaltsArePrecise := by
  intro s t hs h ht
  obtain ⟨hk, log, hbegin, -⟩ := s.tickUp_afterHook
  cases step_halting hs h ht with
  | budget hb => exact .inr ⟨rfl, .inr ⟨rfl, rfl, State.budgetSpent_iff.1 hb⟩⟩
  | fetch => exact .inr ⟨rfl, .inl rfl⟩
  | hook => rw [hbegin]; exact .inr ⟨rfl, .inl rfl⟩
  | internal => rw [hbegin]; exact .inr ⟨rfl, .inl rfl⟩
  | ret f hc hd => rw [hbegin]; exact .inl ⟨f, hc, hd, rfl⟩

theorem State.haltCode_neg {s : State} (hw : haltCodesWellFormed s.params.haltCodes = true) {e : Halt}
    (he : ∀ v, e ≠ .hookHalt v) : (s.haltCode e).toInt < 0 :=
  (haltCodesWellFormed_iff.1 hw).1 _ (Halt.code_mem _ he)

/-- What R180 says of the code of a run ended by a step from `s` to `t`. -/
def CodeTellsEnd (s t : State) : Prop :=
  (t.code = 0 ↔ ∃ f, s.cstk = [f] ∧ t.cstk = [] ∧ decode s.fetchWord = .instr .ret) ∧
  (0 < t.code.toInt → s.hook ≠ none ∧ s.hookAnswer = t.code) ∧ (s.hook = none → t.code.toInt ≤ 0)

theorem not_popped_of_cstk_eq {s t : State} {p : Prop} (hc : t.cstk = s.cstk) :
    ¬ ∃ f, s.cstk = [f] ∧ t.cstk = [] ∧ p := by
  rintro ⟨f, hs, ht, -⟩
  rw [← hc, ht] at hs
  cases hs

theorem CodeTellsEnd.of_internal {s t : State} (hneg : t.code.toInt < 0) (hc : t.cstk = s.cstk) : CodeTellsEnd s t := by
  refine ⟨iff_of_false (fun h0 => ?_) (not_popped_of_cstk_eq hc), fun hpos => by omega, fun _ => by omega⟩
  rw [h0] at hneg
  exact absurd hneg (by decide)

theorem State.hook_ne_none_of_hookAnswer_ne_zero {s : State} (h : s.hookAnswer ≠ 0) : s.hook ≠ none := by
  intro hn
  simp [State.hookAnswer, hn] at h

/-- Settles O59: an internal halt's code is negative and pops nothing, the hook's is its answer and not 0, RET's is 0. -/
theorem outcomeCodeTellsHowTheRunEnded : Obligations.OutcomeCodeTellsHowTheRunEnded := by
  intro s t hw hs h ht
  show CodeTellsEnd s t
  cases step_halting hs h ht with
  | budget => exact .of_internal (State.haltCode_neg hw (by simp)) rfl
  | fetch => exact .of_internal (State.haltCode_neg (s := s.tickUp) hw (by simp)) rfl
  | internal e he => exact .of_internal (State.haltCode_neg (s := s.tickUp.afterHook) (by simpa using hw) he) (by simp)
  | hook hh =>
    have hhook := State.hook_ne_none_of_hookAnswer_ne_zero hh
    exact ⟨iff_of_false hh (not_popped_of_cstk_eq (by simp)), fun _ => ⟨hhook, rfl⟩, fun hn => absurd hn hhook⟩
  | ret f hc hd =>
    exact ⟨iff_of_true rfl ⟨f, hc, rfl, hd⟩, fun hpos => absurd hpos (Int.lt_irrefl 0), fun _ => Int.le_refl 0⟩

end Sys2Proof.Machine

/-! ## What a step of a RUNNING machine leaves (40_step_and_addressing.md R83) -/

namespace Sys2Proof.Machine

/-- The states a step of a RUNNING machine can answer: a halt of the budget, of the fetch, or of the hook or the decoder,
else the effect of an instruction fetched from inside STK. -/
inductive RunningStep (s : State) : State → Prop where
  | budget : RunningStep s (s.raise .budgetExhausted)
  | fetch (hb : s.tick.toNat < s.limit.toNat) : RunningStep s (s.tickUp.raise .memoryFault)
  | ended (hb : s.tick.toNat < s.limit.toNat) (e : Halt) : RunningStep s (s.tickUp.afterHook.raise e)
  | exec (hb : s.tick.toNat < s.limit.toNat) (hp : s.pc.toNat ≤ 65535) (t : State)
      (h : ExecEffect s.tickUp.afterHook t) : RunningStep s t

theorem step_running {s t : State} (hs : s.status = .running) (h : step s = .next t) : RunningStep s t := by
  rcases step_running_cases hs with
    ⟨-, e⟩ | ⟨hb, -, e⟩ | ⟨hb, -, -, e⟩ | ⟨hb, hp, -, ⟨op, -, e⟩ | ⟨i, -, e⟩⟩
  · cases e.symm.trans h
    exact .budget
  · cases e.symm.trans h
    exact .fetch (State.budgetSpent_eq_false.1 hb)
  · cases e.symm.trans h
    exact .ended (State.budgetSpent_eq_false.1 hb) _
  · cases e.symm.trans h
    exact .ended (State.budgetSpent_eq_false.1 hb) _
  · exact .exec (State.budgetSpent_eq_false.1 hb) hp t (exec_effect (e.symm.trans h))

/-! ## The call save stack along a run (44_call_return.md R158) -/

/-- An instruction leaves CSTK, pushes the caller's record, or pops the newest one. -/
theorem ExecEffect.cstk_cases {s t : State} (h : ExecEffect s t) :
    t.cstk = s.cstk ∨ (t.cstk = ⟨s.pc, s.fw, s.cw⟩ :: s.cstk ∧ t.status = s.status) ∨
      ∃ f rest, s.cstk = f :: rest ∧ t = s.popRecord f rest := by
  cases h with
  | closure i u l v ha => exact .inl (by simp [(State.allocate_only ha).read_eq State.cstk])
  | retain i u hr => exact .inl ((State.retain_only hr).read_eq State.cstk)
  | release i u hr => exact .inl ((State.release_only hr).read_eq State.cstk)
  | call => exact .inr (.inl ⟨rfl, rfl⟩)
  | ret f rest hc => exact .inr (.inr ⟨f, rest, hc, rfl⟩)
  | store => exact .inl (by simp)
  | halt | print | aux | frame | advance => exact .inl rfl

/-- The same for a step of a RUNNING machine. -/
theorem step_running_cstk_cases {s t : State} (hs : s.status = .running) (h : step s = .next t) :
    t.cstk = s.cstk ∨ (t.cstk = ⟨s.pc, s.fw, s.cw⟩ :: s.cstk ∧ t.status = .running) ∨
      ∃ f rest, s.cstk = f :: rest ∧ t = s.tickUp.afterHook.popRecord f rest := by
  cases step_running hs h with
  | budget | fetch => exact .inl rfl
  | ended => exact .inl (by simp)
  | exec hb hp t he => simpa [hs] using he.cstk_cases

/-- Records below depth `d` are out of a callee's reach: while CSTK stays deeper than `d`, its oldest `d + 1` records
stand. -/
theorem RunsAbove.suffix {d : Nat} {s u : State} (h : RunsAbove d s u) {base : List Frame} (hlen : base.length = d + 1)
    (hbase : base <:+ s.cstk) : base <:+ u.cstk := by
  induction h with
  | refl => exact hbase
  | step hr hs hd _ ih =>
    refine ih ?_
    rcases step_running_cstk_cases hr hs with e | ⟨e, -⟩ | ⟨f, rest, hc, rfl⟩
    · rwa [e]
    · rw [e]
      exact hbase.trans (List.suffix_cons _ _)
    · rw [hc, List.suffix_cons_iff] at hbase
      rw [State.popRecord_cstk] at hd ⊢
      refine hbase.resolve_left fun e => ?_
      rw [e, List.length_cons] at hlen
      omega

/-- A step that deepens CSTK has pushed the caller's record. -/
theorem step_running_pushes {s t : State} (hs : s.status = .running) (h : step s = .next t)
    (hlen : t.cstk.length = s.cstk.length + 1) : t.cstk = ⟨s.pc, s.fw, s.cw⟩ :: s.cstk := by
  rcases step_running_cstk_cases hs h with e | ⟨e, -⟩ | ⟨f, rest, hc, rfl⟩
  · rw [e] at hlen
    omega
  · exact e
  · rw [hc, State.popRecord_cstk, List.length_cons] at hlen
    omega

/-- A step that lowers CSTK to records that remain has returned to the word after the popped record's call. -/
theorem step_running_returns {s t : State} {f : Frame} {rest : List Frame} (hs : s.status = .running)
    (h : step s = .next t) (hc : f :: rest <:+ s.cstk) (hlen : t.cstk.length = rest.length) (hne : rest ≠ []) :
    t.pc = f.pc + 1 ∧ t.fw = f.fw ∧ t.cw = f.cw ∧ t.cstk = rest ∧ t.status = .running := by
  have hle := hc.length_le
  rw [List.length_cons] at hle
  rcases step_running_cstk_cases hs h with e | ⟨e, -⟩ | ⟨g, rest', hg, rfl⟩
  · rw [e] at hlen
    omega
  · rw [e, List.length_cons] at hlen
    omega
  · rw [State.popRecord_cstk] at hlen
    have heq : f :: rest = g :: rest' := hg ▸ hc.eq_of_length (by simp [hg, hlen])
    cases heq
    obtain ⟨r, rs, rfl⟩ := List.exists_cons_of_ne_nil hne
    exact ⟨rfl, rfl, rfl, rfl, by simp [State.popRecord, hs]⟩

/-- Settles O36: the call pushes the record, the callee's run keeps it at the bottom of its part of CSTK, and the step
that brings CSTK back to the caller's depth is the RET that pops it. -/
theorem nestedCallRestoresCaller : Obligations.NestedCallRestoresCaller := by
  intro s s₁ u v hs hne hcall hpush hrun hu hret hlen
  have hbase := step_running_pushes hs hcall hpush
  have hkept := hrun.suffix (List.length_cons ..) (by rw [hbase])
  exact step_running_returns hu hret hkept hlen hne

/-! ## What no instruction and no step of a RUNNING machine changes (10_state.md R18, R20, R27) -/

/-- GW, LIMIT, the parameters and the requests stand. -/
def SameConfig (s t : State) : Prop :=
  t.gw = s.gw ∧ t.limit = s.limit ∧ t.params = s.params ∧ t.requests = s.requests

theorem ChangesAllocatorOnly.sameConfig {s t : State} (h : ChangesAllocatorOnly s t) : SameConfig s t :=
  ⟨h.read_eq State.gw, h.read_eq State.limit, h.read_eq State.params, h.read_eq State.requests⟩

theorem ExecEffect.sameConfig {s t : State} (h : ExecEffect s t) : SameConfig s t ∧ t.hook = s.hook := by
  cases h with
  | closure i u l v ha =>
    obtain ⟨hgw, hlimit, hparams, hrequests⟩ := (State.allocate_only ha).sameConfig
    simp [SameConfig, hgw, hlimit, hparams, hrequests, (State.allocate_only ha).read_eq State.hook]
  | retain i u hr => exact ⟨(State.retain_only hr).sameConfig, (State.retain_only hr).read_eq State.hook⟩
  | release i u hr => exact ⟨(State.release_only hr).sameConfig, (State.release_only hr).read_eq State.hook⟩
  | halt | store | print | aux | frame | call | ret | advance => simp [SameConfig]

theorem step_running_sameConfig {s t : State} (hs : s.status = .running) (h : step s = .next t) : SameConfig s t := by
  cases step_running hs h with
  | budget | fetch => exact ⟨rfl, rfl, rfl, rfl⟩
  | ended => simp [SameConfig]
  | exec hb hp t he => simpa [SameConfig] using he.sameConfig.1

/-! ## The budget law (40_step_and_addressing.md R90) -/

/-- A run of `k + 1` steps that answers is a step and a run of `k`, for any machine behind the host's interface. -/
theorem run_succ {M : Host.Core} {k : Nat} {s t : M.State} (h : M.run (k + 1) s = .next t) :
    ∃ u, M.step s = .next u ∧ M.run k u = .next t := by
  rw [Host.Core.run] at h
  split at h
  case h_1 u hu => exact ⟨u, hu, h⟩
  all_goals cases h

theorem core_run_succ {k : Nat} {s t : State} (h : core.run (k + 1) s = .next t) :
    ∃ u : State, step s = .next u ∧ core.run k u = .next t := run_succ h

theorem step_not_running_without_request {s : State} (hs : s.status ≠ .running) (hq : s.requests = []) :
    step s = .fault .noStep := by
  rw [step_not_running hs, State.awaitRequest, hq]

/-- A run that ends RUNNING with no request to wait for has been RUNNING at its start. -/
theorem running_of_core_run {k : Nat} {s t : State} (h : core.run k s = .next t) (hq : s.requests = [])
    (ht : t.status = .running) : s.status = .running := by
  by_contra hs
  cases k with
  | zero => cases h; exact hs ht
  | succ k =>
    obtain ⟨u, hu, -⟩ := core_run_succ h
    cases (step_not_running_without_request hs hq).symm.trans hu

theorem step_budgetExhausted {s : State} (hs : s.status = .running) (hb : s.limit.toNat ≤ s.tick.toNat) :
    step s = .next (s.raise .budgetExhausted) := by
  simp [step, hs, State.beginStep, State.budgetSpent_iff.2 hb]

/-- A step that leaves the machine RUNNING had budget left, and has used one unit of it. -/
theorem step_running_running_tick {s t : State} (hs : s.status = .running) (h : step s = .next t)
    (ht : t.status = .running) : t.tick.toNat = s.tick.toNat + 1 ∧ s.tick.toNat < s.limit.toNat := by
  have hb : s.tick.toNat < s.limit.toNat := by
    by_contra hb
    cases (step_budgetExhausted hs (Nat.le_of_not_lt hb)).symm.trans h
    cases ht
  exact ⟨by rw [step_running_tick hs hb h, State.toNat_tick_add_one hb], hb⟩

theorem core_run_tick {k : Nat} {s t : State} (hq : s.requests = []) (hle : s.tick.toNat ≤ s.limit.toNat)
    (h : core.run k s = .next t) (ht : t.status = .running) :
    t.tick.toNat = s.tick.toNat + k ∧ t.limit = s.limit ∧ t.tick.toNat ≤ t.limit.toNat := by
  induction k generalizing s with
  | zero => cases h; exact ⟨rfl, rfl, hle⟩
  | succ k ih =>
    have hs := running_of_core_run h hq ht
    obtain ⟨u, hu, hrun⟩ := core_run_succ h
    obtain ⟨-, hlimit, -, hrequests⟩ := step_running_sameConfig hs hu
    have hqu := hrequests.trans hq
    obtain ⟨htick, hlt⟩ := step_running_running_tick hs hu (running_of_core_run hrun hqu ht)
    obtain ⟨h1, h2, h3⟩ := ih hqu (by rw [hlimit]; omega) hrun
    exact ⟨by omega, h2.trans hlimit, h3⟩

/-- Settles O44: induction over the steps, each of which used one unit of the budget left; with none left the next step
is the BudgetExhausted halt. -/
theorem budgetBoundsEveryRun : Obligations.BudgetBoundsEveryRun := by
  intro k s t _ hq hle h ht
  obtain ⟨htick, hlimit, hbound⟩ := core_run_tick hq hle h ht
  exact ⟨htick, hlimit, hbound, fun hall => step_budgetExhausted ht (by rw [hlimit]; omega)⟩

/-! ## The step of a RUNNING machine (40_step_and_addressing.md R83) -/

theorem exec_answers {i : Instr} {s : State} (h : s.cstk ≠ []) : ∃ t, exec i s = .next t := by
  cases i with
  | ret =>
    obtain ⟨f, rest, hc⟩ := List.exists_cons_of_ne_nil h
    exact ⟨_, exec_ret_cons hc⟩
  | _ => exact ⟨_, rfl⟩

/-- Settles O45: only RET can fail to answer, and only with CSTK empty. -/
theorem runningMachineAlwaysSteps : Obligations.RunningMachineAlwaysSteps := by
  intro s hs hok
  rcases step_running_cases hs with
    ⟨-, e⟩ | ⟨-, -, e⟩ | ⟨-, -, -, e⟩ | ⟨-, -, -, ⟨op, -, e⟩ | ⟨i, -, e⟩⟩
  · exact ⟨_, e⟩
  · exact ⟨_, e⟩
  · exact ⟨_, e⟩
  · exact ⟨_, e⟩
  · rw [e]
    exact exec_answers (by simpa using hok.stackNe hs)

/-- The hook's call and the increment of TICK touch different fields. -/
theorem State.afterHook_tickUp (s : State) : { s.afterHook with tick := s.tick + 1 } = s.tickUp.afterHook := by
  cases h : s.hook with
  | none => simp [State.afterHook, State.tickUp, h]
  | some answers => simp only [State.afterHook, State.tickUp_hook, h]; rfl

/-- Settles O39: the case of the step's inversion in which the fetched word decodes. -/
theorem stepExecutesDecodedInstruction : Obligations.StepExecutesDecodedInstruction := by
  intro s i hs hb hp hh hi
  rw [State.afterHook_tickUp]
  exact step_decodedInstruction hs hb hp hh hi

theorem step_fetchFault {s : State} (hs : s.status = .running) (hb : s.tick.toNat < s.limit.toNat)
    (hp : 65535 < s.pc.toNat) : step s = .next (s.tickUp.raise .memoryFault) := by
  simp [step, hs, State.beginStep, State.budgetSpent_eq_false.2 hb, hp]

theorem step_hookHalt {s : State} (hs : s.status = .running) (hb : s.tick.toNat < s.limit.toNat)
    (hp : s.pc.toNat ≤ 65535) (hh : s.hookAnswer ≠ 0) :
    step s = .next (s.tickUp.afterHook.raise (.hookHalt s.hookAnswer)) := by
  rcases step_running_cases hs with ⟨hb', -⟩ | ⟨-, hp', -⟩ | ⟨-, -, -, e⟩ | ⟨-, -, hh', -⟩
  · rw [State.budgetSpent_iff] at hb'
    omega
  · omega
  · exact e
  · exact absurd hh' hh

/-- A hook that is present has its call recorded, and its oldest settled answer consumed. -/
theorem State.tickUp_afterHook_of_some {s : State} {answers : List Word} (h : s.hook = some answers) :
    s.tickUp.afterHook = { s with
      tick := s.tick + 1
      hook := some answers.tail
      hookLog := s.hookLog ++ [⟨s.pc.setWidth 16, s.fetchWord⟩] } := by
  simp only [State.afterHook, State.tickUp_hook, h]
  rfl

/-- Settles O40: the budget, the fetch address and the hook each have their own equation for the step. -/
theorem stepChecksBudgetFetchHookInOrder : Obligations.StepChecksBudgetFetchHookInOrder := by
  intro s hs
  refine ⟨step_budgetExhausted hs, step_fetchFault hs, fun h => ?absent, fun a rest h => ?settled,
    fun hb hp hh => ?hook⟩
  case absent => simp [State.hookAnswer, h]
  case settled => simp [State.hookAnswer, h]
  case hook =>
    obtain ⟨answers, ha⟩ := Option.ne_none_iff_exists'.1 (State.hook_ne_none_of_hookAnswer_ne_zero hh)
    refine ⟨some answers.tail, ?_, fun a rest h => ?_⟩
    · rw [step_hookHalt hs hb hp hh, State.tickUp_afterHook_of_some ha]
      rfl
    · cases ha.symm.trans h
      rfl

/-! ## A machine that is not RUNNING (40_step_and_addressing.md R89; 70_reset_and_hazards.md R211, R214) -/

theorem State.call_params_requests (s : State) (entry : Half) (clo : ClosureIx) (size : Byte) :
    (s.call entry clo size).params = s.params ∧ (s.call entry clo size).requests = s.requests := by
  rcases s.call_cases entry clo size with ⟨-, e⟩ | ⟨-, e⟩ <;> rw [e] <;> exact ⟨rfl, rfl⟩

/-- The Loader writes neither the parameters nor the requests still to come. -/
theorem State.runRequest_params_requests (s : State) (q : RunRequest) :
    (s.runRequest q).params = s.params ∧ (s.runRequest q).requests = s.requests := by
  rcases s.runRequest_cases q with ⟨-, e⟩ | ⟨-, e⟩ <;> rw [e]
  · exact ⟨rfl, rfl⟩
  · exact (s.loadImage q).call_params_requests _ _ _

/-- Inversion of the step of a machine that is not RUNNING: it has performed its oldest request. -/
theorem step_not_running_next {s t : State} (hs : s.status ≠ .running) (h : step s = .next t) :
    ∃ q rest, s.requests = q :: rest ∧ t = { s with requests := rest }.runRequest q := by
  cases hq : s.requests with
  | nil => cases (step_not_running_without_request hs hq).symm.trans h
  | cons q rest => cases (step_request hs hq).symm.trans h; exact ⟨q, rest, rfl, rfl⟩

/-- Settles O46: without a request there is no step, and a step has performed exactly the oldest one. -/
theorem onlyRunRequestLeavesIdleOrHalted : Obligations.OnlyRunRequestLeavesIdleOrHalted := by
  intro s hs
  refine ⟨step_not_running_without_request hs, fun t h => ?_, fun hne => ?_⟩
  · obtain ⟨q, rest, hq, rfl⟩ := step_not_running_next hs h
    exact ⟨q, rest, hq, (State.runRequest_params_requests _ q).2⟩
  · obtain ⟨q, rest, hq⟩ := List.exists_cons_of_ne_nil hne
    exact ⟨_, step_request hs hq⟩

/-- Settles O49: power-up is IDLE with no request, so it has no step. -/
theorem powerUpIsIdle : Obligations.PowerUpIsIdle :=
  ⟨rfl, rfl, rfl, step_not_running_without_request (by decide) rfl⟩

theorem programWellFormed_eq_false {p : List Word} (h : p.length = 0 ∨ 65536 < p.length) :
    programWellFormed p = false :=
  Bool.eq_false_iff.2 fun hw => by
    rw [programWellFormed_iff] at hw
    omega

theorem State.runRequest_of_rejected (s : State) {q : RunRequest}
    (h : q.program.length = 0 ∨ 65536 < q.program.length) : s.runRequest q = s.raise .loadRejected := by
  rw [State.runRequest, programWellFormed_eq_false h]
  rfl

/-- Settles O53: the run request takes its LoadRejected branch. -/
theorem loaderRejectsEmptyOrTooLong : Obligations.LoaderRejectsEmptyOrTooLong := by
  intro s q rest hs hq hp
  rw [step_request hs hq, State.runRequest_of_rejected _ hp]
  rfl

/-! ## The HALT table (60_exceptions.md R180, R181; decision D8) -/

theorem step_params {s t : State} (h : step s = .next t) : t.params = s.params := by
  by_cases hs : s.status = .running
  · obtain ⟨-, -, hparams, -⟩ := step_running_sameConfig hs h
    exact hparams
  · obtain ⟨q, rest, -, rfl⟩ := step_not_running_next hs h
    exact (State.runRequest_params_requests _ q).1

/-- Where a cause's code stands in the table. -/
def Halt.index : Halt → Nat
  | .budgetExhausted => 0
  | .decodeError => 1
  | .memoryFault => 2
  | .divideByZero => 3
  | .refcountViolation => 4
  | .allocExhausted => 5
  | .loadRejected => 6
  | .callDepthExceeded => 7
  | .hookHalt _ => 8

theorem Halt.toList_index (table : HaltCodes) {e : Halt} (he : ∀ v, e ≠ .hookHalt v) :
    table.toList[e.index]? = some (e.code table) := by
  cases e with
  | hookHalt v => exact absurd rfl (he v)
  | _ => rfl

theorem Halt.index_inj {e e' : Halt} (he : ∀ v, e ≠ .hookHalt v) (h : e.index = e'.index) : e = e' := by
  cases e with
  | hookHalt v => exact absurd rfl (he v)
  | _ => cases e' <;> simp_all [Halt.index]

/-- In a table whose codes are distinct a code tells its internal cause. -/
theorem State.haltCode_inj {s : State} (hw : haltCodesWellFormed s.params.haltCodes = true) {e e' : Halt}
    (he : ∀ v, e ≠ .hookHalt v) (he' : ∀ v, e' ≠ .hookHalt v) (h : s.haltCode e = s.haltCode e') : e = e' := by
  obtain ⟨-, hnodup⟩ := haltCodesWellFormed_iff.1 hw
  have hi := Halt.toList_index s.params.haltCodes he
  have hi' := Halt.toList_index s.params.haltCodes he'
  obtain ⟨hlt, -⟩ := List.getElem?_eq_some_iff.1 hi
  exact Halt.index_inj he ((List.getElem?_inj hlt hnodup).1 (hi.trans ((congrArg some h).trans hi'.symm)))

/-- Settles O58: codes are entries of the table, told apart by their places in it; the default table is evaluated; the
parameters stand in every step. -/
theorem haltTableDefaultsAndDistinctness : Obligations.HaltTableDefaultsAndDistinctness :=
  ⟨fun _ _ => rfl, fun _ _ => rfl,
    fun _ hw _ _ he he' => ⟨State.haltCode_neg hw he, State.haltCode_inj hw he he'⟩,
    by decide, rfl, rfl, fun _ _ => step_params⟩

end Sys2Proof.Machine

/-! ## The invariants of 10_state.md R31: what a step can do to the storage and the allocator -/

namespace Sys2Proof.Machine

/-- Both memories and the allocator's registers are the same. -/
def SameStorage (s t : State) : Prop := t.stk = s.stk ∧ t.cp = s.cp ∧ SameAllocator s t

theorem State.sameStorage_raise (s : State) (e : Halt) : SameStorage s (s.raise e) := ⟨rfl, rfl, rfl, rfl, rfl, rfl⟩

theorem State.sameStorage_begun (s : State) : SameStorage s s.tickUp.afterHook := by simp [SameStorage, SameAllocator]

theorem State.sameStorage_call (s : State) (entry : Half) (clo : ClosureIx) (size : Byte) :
    SameStorage s (s.call entry clo size) := by
  rcases s.call_cases entry clo size with ⟨-, e⟩ | ⟨-, e⟩ <;> rw [e] <;> exact ⟨rfl, rfl, rfl, rfl, rfl, rfl⟩

/-- What an instruction can do to the storage: nothing, one word written, an allocation with its word written, a Retain
or a Release. -/
theorem ExecEffect.storage_cases {s t : State} (h : ExecEffect s t) :
    SameStorage s t ∨ (∃ l v, l.valid ∧ SameStorage (s.writeLoc l v) t) ∨
    (∃ i u l v, s.allocate = .ok (i, u) ∧ l.valid ∧ SameStorage (u.writeLoc l v) t) ∨
    (∃ i u, s.retain i = .ok u ∧ SameStorage u t) ∨ ∃ i u, s.release i = .ok u ∧ SameStorage u t := by
  cases h with
  | store l v hl => exact .inr (.inl ⟨l, v, hl, rfl, rfl, rfl, rfl, rfl, rfl⟩)
  | closure i u l v ha hl =>
    refine .inr (.inr (.inl ⟨i, u, l, v, ha, hl, ?_⟩))
    cases l <;> exact ⟨rfl, rfl, rfl, rfl, rfl, rfl⟩
  | retain i u hr => exact .inr (.inr (.inr (.inl ⟨i, u, hr, rfl, rfl, rfl, rfl, rfl, rfl⟩)))
  | release i u hr => exact .inr (.inr (.inr (.inr ⟨i, u, hr, rfl, rfl, rfl, rfl, rfl, rfl⟩)))
  | halt | print | aux | frame | call | ret | advance => exact .inl (by simp [SameStorage, SameAllocator])

/-- A predicate of the storage that the instructions and the Loader's copy keep is kept by every step. -/
theorem step_keeps_of_storage {P : State → Prop} (hcongr : ∀ s t, SameStorage s t → P s → P t)
    (hexec : ∀ s t, ExecEffect s t → P s → P t)
    (hload : ∀ s q, programWellFormed q.program = true → P s → P (s.loadImage q)) {s t : State} (hP : P s)
    (h : step s = .next t) : P t := by
  by_cases hs : s.status = .running
  · have hbegun := hcongr _ _ s.sameStorage_begun hP
    cases step_running hs h with
    | budget | fetch => exact hcongr s _ ⟨rfl, rfl, rfl, rfl, rfl, rfl⟩ hP
    | ended => exact hcongr _ _ (State.sameStorage_raise _ _) hbegun
    | exec hb hp t he => exact hexec _ _ he hbegun
  · obtain ⟨q, rest, -, rfl⟩ := step_not_running_next hs h
    have hidle : P { s with requests := rest } := hcongr s _ ⟨rfl, rfl, rfl, rfl, rfl, rfl⟩ hP
    rcases State.runRequest_cases { s with requests := rest } q with ⟨-, e⟩ | ⟨hw, e⟩ <;> rw [e]
    · exact hcongr _ _ (State.sameStorage_raise _ _) hidle
    · exact hcongr _ _ (State.sameStorage_call _ _ _ _) (hload _ q hw hidle)

/-! ## Memory stays canonical -/

theorem State.MemoryOk_of_sameStorage {s t : State} (h : SameStorage s t) (hs : s.MemoryOk) : t.MemoryOk := by
  obtain ⟨hstk, hcp, -⟩ := h
  exact State.MemoryOk_congr hstk hcp hs

theorem ChangesAllocatorOnly.memoryOk {s t : State} (h : ChangesAllocatorOnly s t) (hs : s.MemoryOk) : t.MemoryOk :=
  State.MemoryOk_congr (h.read_eq State.stk) (h.read_eq State.cp) hs

theorem ExecEffect.memoryOk {s t : State} (h : ExecEffect s t) (hs : s.MemoryOk) : t.MemoryOk := by
  rcases h.storage_cases with hsame | ⟨l, v, hl, hsame⟩ | ⟨i, u, l, v, ha, hl, hsame⟩ | ⟨i, u, hr, hsame⟩ |
    ⟨i, u, hr, hsame⟩ <;> refine State.MemoryOk_of_sameStorage hsame ?_
  · exact hs
  · exact State.MemoryOk_writeLoc hs hl
  · exact State.MemoryOk_writeLoc ((State.allocate_only ha).memoryOk hs) hl
  · exact (State.retain_only hr).memoryOk hs
  · exact (State.release_only hr).memoryOk hs

/-- The image of an accepted program ends at the last word of STK. -/
theorem State.MemoryOk_loadImage {s : State} {q : RunRequest} (hw : programWellFormed q.program = true)
    (hs : s.MemoryOk) : (s.loadImage q).MemoryOk := by
  obtain ⟨hstk, hcp⟩ := hs
  obtain ⟨-, hle⟩ := programWellFormed_iff.1 hw
  refine ⟨Memory.wf_writeBlock _ hstk ?_, hcp⟩
  rw [stackWords]
  omega

/-- Settles O54: a word is written at a valid location, and the Loader's block lies inside STK. -/
theorem stepKeepsMemoryCanonical : Obligations.StepKeepsMemoryCanonical := fun _ _ =>
  step_keeps_of_storage (P := State.MemoryOk) (fun _ _ => State.MemoryOk_of_sameStorage) (fun _ _ h => h.memoryOk)
    fun _ _ => State.MemoryOk_loadImage

/-! ## The allocator's partition is kept -/

theorem State.AllocOk_of_sameStorage {s t : State} (h : SameStorage s t) (hs : s.AllocOk) : t.AllocOk := by
  obtain ⟨-, -, halloc⟩ := h
  exact State.AllocOk_congr halloc hs

theorem State.AllocOk_writeLoc {s : State} (l : Loc) (v : Word) (hs : s.AllocOk) : (s.writeLoc l v).AllocOk :=
  State.AllocOk_congr (by simp [SameAllocator]) hs

theorem ExecEffect.allocOk {s t : State} (h : ExecEffect s t) (hs : s.AllocOk) : t.AllocOk := by
  rcases h.storage_cases with hsame | ⟨l, v, -, hsame⟩ | ⟨i, u, l, v, ha, -, hsame⟩ | ⟨i, u, hr, hsame⟩ |
    ⟨i, u, hr, hsame⟩ <;> refine State.AllocOk_of_sameStorage hsame ?_
  · exact hs
  · exact State.AllocOk_writeLoc l v hs
  · obtain ⟨-, -, -, -, -, hu⟩ := State.AllocOk_allocate hs ha
    exact State.AllocOk_writeLoc l v hu
  · exact State.AllocOk_retain hs hr
  · exact State.AllocOk_release hs hr

/-- Settles O55: Allocate, Retain and Release keep the partition, no other effect touches it, and the Loader writes the
identity order with every count 0. -/
theorem stepKeepsAllocatorPartition : Obligations.StepKeepsAllocatorPartition := fun _ _ =>
  step_keeps_of_storage (P := State.AllocOk) (fun _ _ => State.AllocOk_of_sameStorage) (fun _ _ h => h.allocOk)
    fun _ _ _ _ => State.AllocOk_identity rfl rfl rfl rfl

/-! ## The control state stays sound -/

theorem State.ControlOk_raise {s : State} (hs : s.ControlOk) (e : Halt) : (s.raise e).ControlOk :=
  ⟨hs.tickLe, hs.pcLe, hs.savedPc, fun h => by cases h⟩

/-- The invariant reads six fields and nothing else. -/
theorem State.ControlOk_congr {s t : State} (htick : t.tick = s.tick) (hlimit : t.limit = s.limit) (hpc : t.pc = s.pc)
    (hcstk : t.cstk = s.cstk) (hstatus : t.status = s.status) (hs : s.ControlOk) : t.ControlOk :=
  ⟨by rw [htick, hlimit]; exact hs.tickLe, by rw [hpc]; exact hs.pcLe, by rw [hcstk]; exact hs.savedPc,
    by rw [hstatus, hcstk]; exact hs.stackNe⟩

theorem State.ControlOk_tickUp {s : State} (hs : s.ControlOk) (hb : s.tick.toNat < s.limit.toNat) :
    s.tickUp.ControlOk :=
  ⟨by rw [State.tickUp_tick, State.toNat_tick_add_one hb]; exact hb, hs.pcLe, hs.savedPc, hs.stackNe⟩

theorem State.ControlOk_begun {s : State} (hs : s.ControlOk) (hb : s.tick.toNat < s.limit.toNat) :
    s.tickUp.afterHook.ControlOk :=
  State.ControlOk_congr (by simp) (by simp) (by simp) (by simp) (by simp) (State.ControlOk_tickUp hs hb)

theorem PcWord.toNat_add_one_le {v : PcWord} (h : v.toNat ≤ 65535) : (v + 1).toNat ≤ 65536 := by
  rw [BitVec.toNat_add_of_lt (show v.toNat + 1 < 2 ^ 17 by omega)]
  exact Nat.succ_le_succ h

theorem State.ControlOk_advance {s : State} (hs : s.ControlOk) (hp : s.pc.toNat ≤ 65535) : s.advance.ControlOk :=
  ⟨hs.tickLe, PcWord.toNat_add_one_le hp, hs.savedPc, hs.stackNe⟩

theorem ChangesAllocatorOnly.controlOk_advance {s t : State} (h : ChangesAllocatorOnly s t) (hs : s.ControlOk)
    (hp : s.pc.toNat ≤ 65535) : t.advance.ControlOk := by
  have hpc : t.pc = s.pc := h.read_eq State.pc
  exact State.ControlOk_advance (State.ControlOk_congr (s := s) (h.read_eq State.tick) (h.read_eq State.limit) hpc
    (h.read_eq State.cstk) (h.read_eq State.status) hs) (hpc ▸ hp)

theorem Half.toNat_setWidth_le (entry : Half) : (entry.setWidth 17).toNat ≤ 65535 := by
  rw [BitVec.toNat_setWidth_of_le (by decide)]
  omega

theorem State.ControlOk_popRecord {s : State} {f : Frame} {rest : List Frame} (hs : s.ControlOk)
    (hc : s.cstk = f :: rest) : (s.popRecord f rest).ControlOk := by
  obtain ⟨hf, hrest⟩ := List.forall_mem_cons.1 (hc ▸ hs.savedPc)
  cases rest with
  | nil => exact ⟨hs.tickLe, Nat.le_succ_of_le hf, hrest, fun h => by cases h⟩
  | cons g rest => exact ⟨hs.tickLe, PcWord.toNat_add_one_le hf, hrest, fun _ => List.cons_ne_nil g rest⟩

/-- An instruction fetched from inside STK keeps the invariant: it advances PC by one, enters at a 16-bit address, or
returns to a saved one. -/
theorem ExecEffect.controlOk {s t : State} (h : ExecEffect s t) (hs : s.ControlOk) (hp : s.pc.toNat ≤ 65535) :
    t.ControlOk := by
  have hadvance := State.ControlOk_advance hs hp
  cases h with
  | halt e => exact State.ControlOk_raise hs e
  | call entry clo size =>
    exact ⟨hs.tickLe, Nat.le_succ_of_le (Half.toNat_setWidth_le entry), List.forall_mem_cons.2 ⟨hp, hs.savedPc⟩,
      fun _ => List.cons_ne_nil _ _⟩
  | ret f rest hc => exact State.ControlOk_popRecord hs hc
  | closure i u l v ha =>
    have hu := (State.allocate_only ha).controlOk_advance hs hp
    exact State.ControlOk_congr (by simp) (by simp) (by simp) (by simp) (by simp) hu
  | retain i u hr => exact (State.retain_only hr).controlOk_advance hs hp
  | release i u hr => exact (State.release_only hr).controlOk_advance hs hp
  | store | print | aux | frame | advance =>
    exact State.ControlOk_congr (by simp) (by simp) (by simp) (by simp) (by simp) hadvance

/-- After the Loader's copy CSTK is empty: its first call pushes the run's record, or halts. -/
theorem State.ControlOk_runRequest {s : State} (hs : s.ControlOk) (q : RunRequest) :
    (s.runRequest q).ControlOk := by
  rcases s.runRequest_cases q with ⟨-, e⟩ | ⟨-, e⟩
  · rw [e]
    exact State.ControlOk_raise hs _
  · rw [e]
    rcases (s.loadImage q).call_cases (trailerEntry q.program) 0 0 with ⟨-, e⟩ | ⟨-, e⟩ <;> rw [e]
    · exact ⟨Nat.zero_le _, Nat.zero_le _, List.forall_mem_nil _, fun h => by cases h⟩
    · exact ⟨Nat.zero_le _, Nat.le_succ_of_le (Half.toNat_setWidth_le _),
        List.forall_mem_singleton.2 (Nat.zero_le _), fun _ => List.cons_ne_nil _ _⟩

/-- Settles O56: past the budget check TICK may grow by one, past the fetch check PC is inside STK, and then the
instruction keeps the invariant; the Loader establishes it. -/
theorem stepKeepsControlSound : Obligations.StepKeepsControlSound := by
  intro s t hok h
  by_cases hs : s.status = .running
  · cases step_running hs h with
    | budget => exact State.ControlOk_raise hok _
    | fetch hb => exact State.ControlOk_raise (State.ControlOk_tickUp hok hb) _
    | ended hb => exact State.ControlOk_raise (State.ControlOk_begun hok hb) _
    | exec hb hp t he => exact he.controlOk (State.ControlOk_begun hok hb) (by simpa using hp)
  · obtain ⟨q, rest, -, rfl⟩ := step_not_running_next hs h
    have hidle : ({ s with requests := rest } : State).ControlOk :=
      State.ControlOk_congr (s := s) rfl rfl rfl rfl rfl hok
    exact State.ControlOk_runRequest hidle q

/-- Settles O57: power-up lists no word, has the identity order with every count 0, and has not begun a run. -/
theorem powerUpMeetsInvariants : Obligations.PowerUpMeetsInvariants :=
  ⟨⟨Memory.wf_nil _, Memory.wf_nil _⟩, State.AllocOk_identity rfl rfl rfl rfl,
    ⟨Nat.le_refl _, Nat.zero_le _, List.forall_mem_nil _, fun h => by cases h⟩⟩

end Sys2Proof.Machine

/-! ## Two names of one word (10_state.md R11, R12) -/

namespace Sys2Proof.Machine

theorem State.loc_frame_eq_some {s : State} {off : BitVec 6} {l : Loc} (h : s.loc ⟨.frame, off⟩ = some l) :
    ∃ n : Nat, s.fw.toInt + (off.toNat : Int) = n ∧ l = .stk n := by
  rw [State.loc_frame] at h
  split_ifs at h with hrange
  cases h
  exact ⟨_, (Int.toNat_of_nonneg (by omega)).symm, rfl⟩

theorem State.loc_global_eq_some {s : State} {off : BitVec 6} {l : Loc} (h : s.loc ⟨.global, off⟩ = some l) :
    l = .stk (s.gw.toNat + off.toNat) := by
  rw [State.loc_global] at h
  split_ifs at h
  cases h
  rfl

/-- Settles O8: a resolved frame or global name is the word at its sum, a closure or auxiliary one its slot and its
offset. -/
theorem overlappingWindowsNameOneWord : Obligations.OverlappingWindowsNameOneWord := by
  intro s i j
  refine ⟨fun l m hl hm => ?stack, fun l m hl hm => ?slots⟩
  case stack =>
    obtain ⟨n, hn, rfl⟩ := State.loc_frame_eq_some hl
    rw [State.loc_global_eq_some hm, Loc.stk.injEq, hn]
    omega
  case slots =>
    cases hl
    cases hm
    rw [Loc.cp.injEq]

/-! ## LD and ST, by what `Loc` and the computed index answer (41_data_movement.md R103, R104) -/

theorem State.withIndex_of_range {s : State} {a : Int} (h0 : 0 ≤ a) (h1 : a ≤ 65535) (k : Nat → State) :
    s.withIndex a k = k a.toNat := by
  rw [State.withIndex, stackIndex_eq_some.2 ⟨⟨h0, h1⟩, rfl⟩]

theorem State.withIndex_of_not_range {s : State} {a : Int} (h : a < 0 ∨ 65535 < a) (k : Nat → State) :
    s.withIndex a k = s.raise .memoryFault := by
  rw [State.withIndex, stackIndex_eq_none.2 (by omega)]

theorem haltsWith_ld_of_none {s : State} {x y : RegRef} (h : s.loc x = none ∨ s.loc y = none) (d : Byte) :
    HaltsWith (.ld x y d) s .memoryFault := by
  rcases s.loadStack_cases x y d with e | ⟨lx, ly, a, hx, hy, -, -⟩
  · exact haltsWith_of_exec (by rw [exec_ld, e])
  · simp [hx, hy] at h

theorem haltsWith_st_of_none {s : State} {x z : RegRef} (h : s.loc x = none ∨ s.loc z = none) (d : Byte) :
    HaltsWith (.st x d z) s .memoryFault := by
  rcases s.storeStack_cases x d z with e | ⟨lx, lz, a, hx, hz, -, -⟩
  · exact haltsWith_of_exec (by rw [exec_st, e])
  · simp [hx, hz] at h

section Resolved

variable {s : State} {x y z : RegRef} {lx ly lz : Loc} {d : Byte}

theorem exec_ld_of_some (hx : s.loc x = some lx) (hy : s.loc y = some ly) : exec (.ld x y d) s =
    .next (s.withIndex ((s.readLoc ly).toInt + d.toNat) fun a => (s.writeLoc lx (s.readLoc (.stk a))).advance) := by
  rw [exec_ld, State.loadStack, State.withLoc_some hx, State.withLoc_some hy]
  rfl

theorem exec_st_of_some (hx : s.loc x = some lx) (hz : s.loc z = some lz) : exec (.st x d z) s =
    .next (s.withIndex ((s.readLoc lx).toInt + d.toNat) fun a => (s.writeLoc (.stk a) (s.readLoc lz)).advance) := by
  rw [exec_st, State.storeStack, State.withLoc_some hx, State.withLoc_some hz]
  rfl

theorem exec_st_of_range (hx : s.loc x = some lx) (hz : s.loc z = some lz) (h0 : 0 ≤ (s.readLoc lx).toInt + d.toNat)
    (h1 : (s.readLoc lx).toInt + d.toNat ≤ 65535) : exec (.st x d z) s =
    .next (s.writeLoc (.stk ((s.readLoc lx).toInt + d.toNat).toNat) (s.readLoc lz)).advance := by
  rw [exec_st_of_some hx hz, State.withIndex_of_range h0 h1]

end Resolved

/-- Settles O12: with both registers resolved, the computed index alone decides between the load and the fault. -/
theorem ldLoadsStackWordAtSignedIndex : Obligations.LdLoadsStackWordAtSignedIndex := by
  refine fun s x y d => ⟨fun l m hx hy => ⟨fun h0 h1 => ?load, fun h => ?fault⟩, fun h => haltsWith_ld_of_none h d⟩
  case load => exact completesWriting_of_exec (by rw [exec_ld_of_some hx hy, State.withIndex_of_range h0 h1])
  case fault => exact haltsWith_of_exec (by rw [exec_ld_of_some hx hy, State.withIndex_of_not_range h])

/-- Settles O13: with both registers resolved, the computed index alone decides between the store and the fault. -/
theorem stStoresWordAtSignedIndex : Obligations.StStoresWordAtSignedIndex := by
  refine fun s x d z => ⟨fun l m hx hz => ⟨fun h0 h1 => ?store, fun h => ?fault⟩, fun h => haltsWith_st_of_none h d⟩
  case store => exact completesWriting_of_exec (exec_st_of_range hx hz h0 h1)
  case fault => exact haltsWith_of_exec (by rw [exec_st_of_some hx hz, State.withIndex_of_not_range h])

theorem PcWord.toNat_add_one_of_lt {v : PcWord} (h : v.toNat < 65535) : (v + 1).toNat = v.toNat + 1 :=
  BitVec.toNat_add_of_lt (show v.toNat + 1 < 2 ^ 17 by omega)

/-- The fetch reads STK at PC, like any other read. -/
theorem State.fetchWord_eq_readLoc (s : State) : s.fetchWord = s.readLoc (.stk s.pc.toNat) := rfl

/-- Settles O14: the store is at the address the advance moves PC to. -/
theorem storedWordIsFetchedNext : Obligations.StoredWordIsFetchedNext := by
  intro s x d z l m hx hz hpc hindex
  refine ⟨_, exec_st_of_range hx hz (by omega) (by omega), ?_⟩
  have hnext : (s.pc + 1).toNat = ((s.readLoc l).toInt + d.toNat).toNat := by
    rw [PcWord.toNat_add_one_of_lt hpc]
    omega
  rw [State.fetchWord_eq_readLoc, State.readLoc_advance, State.advance_pc, State.writeLoc_pc, hnext,
    State.readLoc_writeLoc_same]

/-! ## Shifts, DIV and MOD: the results (42_arithmetic.md R115, R116, R119 to R121) -/

theorem shiftCount_eq_mod (q : Word) : shiftCount q = q.toNat % 32 := by
  rw [shiftCount, BitVec.extractLsb'_toNat, Nat.shiftRight_zero]

theorem aluShl_eq_ofNat (p q : Word) : aluShl p q = .ok (BitVec.ofNat 32 (p.toNat * 2 ^ (q.toNat % 32))) := by
  rw [aluShl, shiftCount_eq_mod]
  refine congrArg Except.ok (BitVec.eq_of_toNat_eq ?_)
  rw [BitVec.toNat_shiftLeft, Nat.shiftLeft_eq, BitVec.toNat_ofNat]

theorem aluShr_eq_ofInt (p q : Word) : aluShr p q = .ok (BitVec.ofInt 32 (p.toInt / 2 ^ (q.toNat % 32))) := by
  rw [aluShr, shiftCount_eq_mod, BitVec.sshiftRight, Int.shiftRight_eq_div_pow, Nat.cast_pow]
  rfl

/-- Settles O18: the form's two rules; a shift by the low 5 bits scales by that power of two. -/
theorem shiftsScaleByPowerOfTwo : Obligations.ShiftsScaleByPowerOfTwo := by
  refine fun s x y z => ⟨fun lx ly lz hx hy hz => ⟨?_, ?_⟩, fun h =>
    ⟨haltsWith_of_binop (exec_shl s x y z) h, haltsWith_of_binop (exec_shr s x y z) h⟩⟩
  · exact completesWriting_of_binop (exec_shl s x y z) hx hy hz (aluShl_eq_ofNat _ _)
  · exact completesWriting_of_binop (exec_shr s x y z) hx hy hz (aluShr_eq_ofInt _ _)

/-- The one quotient that does not fit, -2^31 / -1, wraps like any other result. -/
theorem aluDiv_eq_ofInt {p q : Word} (hq : q ≠ 0) : aluDiv p q = .ok (BitVec.ofInt 32 (p.toInt.tdiv q.toInt)) := by
  rw [aluDiv, if_neg hq]
  split_ifs with h
  · rw [h.1, h.2]
    decide
  · rfl

theorem aluMod_eq_ofInt {p q : Word} (hq : q ≠ 0) : aluMod p q = .ok (BitVec.ofInt 32 (p.toInt.tmod q.toInt)) := by
  rw [aluMod, if_neg hq, ← Int.tmod_def]
  split_ifs with h
  · rw [h.1, h.2]
    decide
  · rfl

/-- Settles O19: the form's rule with the truncating quotient and remainder. -/
theorem divModTruncateTowardZero : Obligations.DivModTruncateTowardZero := by
  intro s x y z lx ly lz hx hy hz hq
  exact ⟨completesWriting_of_binop (exec_div s x y z) hx hy hz (aluDiv_eq_ofInt hq),
    completesWriting_of_binop (exec_mod s x y z) hx hy hz (aluMod_eq_ofInt hq)⟩

theorem haltsWith_of_binop_error {i : Instr} {s : State} {op : Word → Word → Except Halt Word} {x y z : RegRef}
    {lx ly lz : Loc} {e : Halt} (hi : exec i s = .next (s.binop op x y z)) (hx : s.loc x = some lx)
    (hy : s.loc y = some ly) (hz : s.loc z = some lz) (he : op (s.readLoc ly) (s.readLoc lz) = .error e) :
    HaltsWith i s e :=
  haltsWith_of_exec (by
    rw [hi, State.binop, State.withLoc_some hx, State.withLoc_some hy, State.withLoc_some hz, he])

/-- Settles O20: the operands are resolved before the divisor is tested. -/
theorem divModByZeroHalts : Obligations.DivModByZeroHalts := by
  refine fun s x y z => ⟨fun lx ly lz hx hy hz h0 => ⟨?_, ?_⟩, fun h =>
    ⟨haltsWith_of_binop (exec_div s x y z) h, haltsWith_of_binop (exec_mod s x y z) h⟩⟩
  · exact haltsWith_of_binop_error (exec_div s x y z) hx hy hz (if_pos h0)
  · exact haltsWith_of_binop_error (exec_mod s x y z) hx hy hz (if_pos h0)

theorem Word.natAbs_toInt_le (q : Word) : q.toInt.natAbs ≤ 2 ^ 31 := by
  have hlo := BitVec.le_toInt q
  have hhi := BitVec.toInt_lt (x := q)
  omega

theorem Word.toInt_ne_zero {q : Word} (h : q ≠ 0) : q.toInt ≠ 0 := BitVec.toInt_ne.2 h

theorem natAbs_tmod_lt (a : Int) {b : Int} (hb : b ≠ 0) : (a.tmod b).natAbs < b.natAbs := by
  rw [Int.natAbs_tmod]
  exact Nat.mod_lt _ (Int.natAbs_pos.2 hb)

/-- A remainder is smaller in size than its divisor, so it fits the Word. -/
theorem Word.toInt_ofInt_tmod (p : Word) {q : Word} (hq : q ≠ 0) :
    (BitVec.ofInt 32 (p.toInt.tmod q.toInt)).toInt = p.toInt.tmod q.toInt := by
  have hlt := natAbs_tmod_lt p.toInt (Word.toInt_ne_zero hq)
  have hle := Word.natAbs_toInt_le q
  exact BitVec.toInt_ofInt_eq_self (by decide) (by omega) (by omega)

theorem tmod_eq_zero_or_neg_iff (a b : Int) : a.tmod b = 0 ∨ (a.tmod b < 0 ↔ a < 0) := by
  have hsign := Int.sign_tmod a b
  split_ifs at hsign with hdvd
  · exact .inl (Int.sign_eq_zero_iff_zero.1 hsign)
  · exact .inr (by rw [← Int.sign_eq_neg_one_iff_neg, hsign, Int.sign_eq_neg_one_iff_neg])

/-- Settles O21: `q * tdiv p q + tmod p q = p` holds before wrapping, and wrapping respects sums and products. -/
theorem quotientAndRemainderRecoverDividend : Obligations.QuotientAndRemainderRecoverDividend := by
  intro p q hq
  refine ⟨_, _, aluDiv_eq_ofInt hq, aluMod_eq_ofInt hq, ?_, ?_, ?_⟩
  · calc BitVec.ofInt 32 (q.toInt * (BitVec.ofInt 32 (p.toInt.tdiv q.toInt)).toInt +
          (BitVec.ofInt 32 (p.toInt.tmod q.toInt)).toInt)
        = BitVec.ofInt 32 (q.toInt * p.toInt.tdiv q.toInt + p.toInt.tmod q.toInt) := by
          simp only [BitVec.ofInt_add, BitVec.ofInt_mul, BitVec.ofInt_toInt]
      _ = p := by rw [Int.mul_tdiv_add_tmod, BitVec.ofInt_toInt]
  · rw [Word.toInt_ofInt_tmod p hq]
    exact natAbs_tmod_lt _ (Word.toInt_ne_zero hq)
  · rw [Word.toInt_ofInt_tmod p hq]
    exact tmod_eq_zero_or_neg_iff _ _

end Sys2Proof.Machine

/-! ## Release, by the index and its count (43_closure_allocator.md R134) -/

namespace Sys2Proof.Machine

theorem State.release_zero (s : State) : s.release 0 = .ok s := rfl

theorem State.release_of_free {s : State} {i : ClosureIx} (hi : i ≠ 0) (h : s.rcOf i = 0) :
    s.release i = .error .refcountViolation := by
  rw [State.release, if_neg hi, if_pos h]

theorem State.release_of_one {s : State} {i : ClosureIx} (hi : i ≠ 0) (h : s.rcOf i = 1) :
    s.release i = .ok ((s.setRc i 0).freeIndex i) := by
  rcases s.release_cases i with ⟨h0, -⟩ | ⟨-, hfree, -⟩ | ⟨-, -, e⟩ | ⟨-, -, hne, -⟩
  · exact absurd h0 hi
  · rw [h] at hfree
    cases hfree
  · exact e
  · exact absurd h hne

theorem State.release_of_shared {s : State} {i : ClosureIx} (hi : i ≠ 0) (h0 : s.rcOf i ≠ 0) (h1 : s.rcOf i ≠ 1) :
    s.release i = .ok (s.setRc i (s.rcOf i - 1)) := by
  rcases s.release_cases i with ⟨h, -⟩ | ⟨-, h, -⟩ | ⟨-, h, -⟩ | ⟨-, -, -, e⟩
  · exact absurd h hi
  · exact absurd h h0
  · exact absurd h h1
  · exact e

theorem State.release_elections {s t : State} {i : ClosureIx} (h : s.release i = .ok t) :
    t.elections = s.elections := by
  rcases s.release_cases i with ⟨-, e⟩ | ⟨-, -, e⟩ | ⟨-, -, e⟩ | ⟨-, -, -, e⟩ <;> cases e.symm.trans h <;> rfl

theorem Word.toNat_sub_one {v : Word} (h : v ≠ 0) : (v - 1).toNat = v.toNat - 1 := by
  have hpos : v.toNat ≠ 0 := fun e => h (BitVec.eq_of_toNat_eq e)
  exact BitVec.toNat_sub_of_le (show 1 ≤ v.toNat by omega)

/-- What Release does to the counts of a live index and of the others, and to the free set (R134). -/
theorem State.release_live {s : State} {i : ClosureIx} (hi : i ≠ 0) (hpos : 0 < (s.rcOf i).toNat) :
    ∃ t, s.release i = .ok t ∧ (t.rcOf i).toNat = (s.rcOf i).toNat - 1 ∧ (∀ k, k ≠ i → t.rcOf k = s.rcOf k) ∧
      (1 < (s.rcOf i).toNat → t.perm = s.perm ∧ t.pos = s.pos ∧ t.cnt = s.cnt) ∧
      ((s.rcOf i).toNat = 1 → t.cnt = s.cnt - 1 ∧ (s.AllocOk → t.permAt t.cnt = i)) := by
  have h0 : s.rcOf i ≠ 0 := fun e => by simp [e] at hpos
  by_cases h1 : s.rcOf i = 1
  · refine ⟨_, State.release_of_one hi h1, ?_, fun k hk => s.rcOf_setRc_other 0 hk, ?_, fun _ => ⟨rfl, fun hok => ?_⟩⟩
    · rw [State.rcOf_freeIndex, State.rcOf_setRc_same, h1]
      rfl
    · rw [h1]
      exact fun hlt => absurd hlt (by decide)
    · obtain ⟨-, hfirst, -⟩ := State.AllocOk_freeIndex hok hi h0
      exact hfirst
  · refine ⟨_, State.release_of_shared hi h0 h1, ?_, fun k hk => s.rcOf_setRc_other _ hk, fun _ => ⟨rfl, rfl, rfl⟩,
      fun h => absurd (BitVec.eq_of_toNat_eq h) h1⟩
    rw [State.rcOf_setRc_same, Word.toNat_sub_one h0]

/-- Settles O26: Release of a last reference is `freeIndex`, whose effect on the invariant's registers is known. -/
theorem freeingReleaseReturnsIndexFirst : Obligations.FreeingReleaseReturnsIndexFirst := by
  intro s t i hok hi h1 h
  cases (State.release_of_one hi h1).symm.trans h
  obtain ⟨hpos, hfirst, hok'⟩ := State.AllocOk_freeIndex hok hi (by rw [h1]; decide)
  exact ⟨s.rcOf_setRc_same i 0, rfl, hpos, hfirst, hok'⟩

theorem State.elect_of_reference {s : State} (h : s.params.allocPolicy = .reference) : s.elect = s := by
  rw [State.elect, h]

/-- Settles O27: the index released is the first free entry, which the reference policy allocates. -/
theorem releasedIndexIsReallocatedFirst : Obligations.ReleasedIndexIsReallocatedFirst := by
  intro s t u i hok href ha hr
  obtain ⟨hne, -, h1, -, -, hokt⟩ := State.AllocOk_allocate hok ha
  have hparams : u.params = s.params :=
    ((State.release_only hr).read_eq State.params).trans ((State.allocate_only ha).read_eq State.params)
  obtain ⟨-, hcnt, hpos, hfirst, -⟩ := freeingReleaseReturnsIndexFirst t u i hokt hne h1 hr
  have hle := hokt.cntLe
  refine ⟨_, State.allocate_eq_ok.2 ⟨by omega, ?_, rfl⟩⟩
  rw [State.elect_of_reference (hparams ▸ href), hfirst]

theorem State.setRc_setRc_self (s : State) (i : ClosureIx) (n : Word) :
    ((s.setRc i n).setRc i (s.rcOf i)).rc = s.rc := by
  rw [State.setRc_rc, State.setRc_rc, Vector.set_set]
  exact Vector.set_getElem_self _

/-- Settles O28: the count Retain leaves is neither 0 nor 1, so Release only takes the increment back. -/
theorem balancedRetainReleaseKeepsCounts : Obligations.BalancedRetainReleaseKeepsCounts := by
  intro s t i h
  rcases s.retain_cases i with ⟨rfl, e⟩ | ⟨-, -, e⟩ | ⟨hi, hlive, hmax, e⟩ <;> cases e.symm.trans h
  · exact ⟨s, s.release_zero, rfl, rfl⟩
  · have hcount := s.rcOf_setRc_same i (s.rcOf i + 1)
    have hne0 : s.rcOf i + 1 ≠ 0 := Word.add_one_ne_zero hmax
    have hne1 : s.rcOf i + 1 ≠ 1 := fun e => hlive (by simpa using e)
    refine ⟨_, State.release_of_shared hi (by rwa [hcount]) (by rwa [hcount]), ?_, rfl⟩
    rw [hcount, BitVec.add_sub_cancel]
    exact s.setRc_setRc_self i _

/-! ## CNT counts the live indexes (10_state.md R31 item 3) -/

/-- The numbers of the live indexes. -/
def State.liveIndexes (s : State) : List Nat :=
  (List.range 256).filter fun n => decide (s.rcOf (BitVec.ofNat 8 n) ≠ 0)

/-- The first CNT entries of PERM, as numbers. -/
def State.liveEntries (s : State) : List Nat := (List.range s.cnt).map fun j => (s.permAt j).toNat

theorem State.mem_liveIndexes {s : State} {n : Nat} : n ∈ s.liveIndexes ↔ n < 256 ∧ s.rcOf (BitVec.ofNat 8 n) ≠ 0 := by
  simp [State.liveIndexes]

theorem State.mem_liveEntries {s : State} {n : Nat} : n ∈ s.liveEntries ↔ ∃ j, j < s.cnt ∧ (s.permAt j).toNat = n := by
  simp [State.liveEntries]

theorem State.AllocOk.mem_liveIndexes_iff {s : State} (h : s.AllocOk) (n : Nat) :
    n ∈ s.liveIndexes ↔ n ∈ s.liveEntries := by
  rw [State.mem_liveIndexes, State.mem_liveEntries]
  constructor
  · rintro ⟨hn, hlive⟩
    have hi : BitVec.ofNat 8 n ≠ 0 := fun e => hlive (e ▸ h.rcNull)
    refine ⟨_, (h.liveIff _ hi).1 hlive, ?_⟩
    rw [h.permPos _ hi, BitVec.toNat_ofNat, Nat.mod_eq_of_lt hn]
  · rintro ⟨j, hj, rfl⟩
    have hj' : j < 255 := Nat.lt_of_lt_of_le hj h.cntLe
    refine ⟨BitVec.isLt _, ?_⟩
    rw [BitVec.ofNat_toNat, BitVec.setWidth_eq, h.liveIff _ (h.permNe j hj'), h.posPerm j hj']
    exact hj

theorem State.AllocOk.nodup_liveEntries {s : State} (h : s.AllocOk) : s.liveEntries.Nodup := by
  refine List.Nodup.map_on (fun j hj k hk e => ?_) List.nodup_range
  have hle := h.cntLe
  rw [List.mem_range] at hj hk
  rw [← h.posPerm j (by omega), BitVec.eq_of_toNat_eq e, h.posPerm k (by omega)]

/-- Settles O29: the live indexes are, up to order, the first CNT entries of PERM. -/
theorem cntCountsLiveClosures : Obligations.CntCountsLiveClosures := by
  intro s h
  have hperm : s.liveIndexes.Perm s.liveEntries :=
    (List.perm_ext_iff_of_nodup (List.nodup_range.filter _) h.nodup_liveEntries).2 h.mem_liveIndexes_iff
  exact ⟨hperm.length_eq.trans (by simp [State.liveEntries]), h.cntLe⟩

end Sys2Proof.Machine

/-! ## RELEASE, MKC and AUX (43_closure_allocator.md R136, R138, R139) -/

namespace Sys2Proof

theorem decode_release {w : Word} (h : opField w = 0x12) :
    decode w = .instr (.release (RegRef.ofByte (xField w))) := by rw [decode, h]; rfl

theorem tagValue_eq_ofNat (i : ClosureIx) (p : Half) :
    Machine.tagValue i p = BitVec.ofNat 32 (i.toNat * 2 ^ 24 + p.toNat) := by
  have hp : (p.setWidth 24).toNat = p.toNat := BitVec.toNat_setWidth_of_le (by decide)
  refine BitVec.eq_of_toNat_eq ?_
  rw [Machine.tagValue, BitVec.toNat_append, hp, ← Nat.shiftLeft_add_eq_or_of_lt (by omega), Nat.shiftLeft_eq,
    BitVec.toNat_ofNat, Nat.mod_eq_of_lt (by omega)]

end Sys2Proof

namespace Sys2Proof.Machine

theorem haltsWith_release_of_none {s : State} {x : RegRef} (h : s.loc x = none) :
    HaltsWith (.release x) s .memoryFault :=
  haltsWith_of_exec (by rw [exec_release, State.actOnReg_of_none h])

theorem haltsWith_release_of_error {s : State} {x : RegRef} {l : Loc} {e : Halt} (hx : s.loc x = some l)
    (he : s.release (closureIndex (s.readLoc l)) = .error e) : HaltsWith (.release x) s e :=
  haltsWith_of_exec (by rw [exec_release, State.actOnReg_of_error hx he])

theorem exec_release_of_ok {s t : State} {x : RegRef} {l : Loc} (hx : s.loc x = some l)
    (ht : s.release (closureIndex (s.readLoc l)) = .ok t) : exec (.release x) s = .next t.advance := by
  rw [exec_release, State.actOnReg_of_ok hx ht]

/-- Settles O25: what `Loc` answers decides the MemoryFault; then the index and its count decide what Release does. -/
theorem releaseDecrementsLiveCount : Obligations.ReleaseDecrementsLiveCount := by
  refine ⟨fun _ => decode_release, fun s x => ⟨haltsWith_release_of_none, fun l hx =>
    ⟨fun h0 => ?null, fun hi h => ?violation, fun hi hpos => ?live⟩⟩⟩
  case null => exact exec_release_of_ok hx ((congrArg s.release h0).trans s.release_zero)
  case violation => exact haltsWith_release_of_error hx (State.release_of_free hi (BitVec.eq_of_toNat_eq h))
  case live =>
    obtain ⟨t, ht, hcount, hothers, hshared, hlast⟩ := State.release_live hi hpos
    have honly := State.release_only ht
    have helections := State.release_elections ht
    exact ⟨_, exec_release_of_ok hx ht, hcount, hothers, hshared, hlast, congrArg (· + 1) (honly.read_eq State.pc),
      fun m => (t.readLoc_advance m).trans (honly.sameMemory m), honly.sameWindows, honly.read_eq State.cstk,
      honly.read_eq State.printLog, honly.sameRun, helections⟩

theorem haltsWith_mkc_of_none {s : State} {x : RegRef} (h : s.loc x = none) (p : Half) :
    HaltsWith (.mkc x p) s .memoryFault :=
  haltsWith_of_exec (by rw [exec_mkc, State.makeClosure, State.withLoc_none h])

theorem haltsWith_mkc_of_error {s : State} {x : RegRef} {l : Loc} {e : Halt} (hx : s.loc x = some l)
    (he : s.allocate = .error e) (p : Half) : HaltsWith (.mkc x p) s e :=
  haltsWith_of_exec (by rw [exec_mkc, State.makeClosure, State.withLoc_some hx, he])

/-- Settles O23: the destination is resolved, then the free set is asked, both before anything is allocated. -/
theorem mkcHaltsWithoutAllocating : Obligations.MkcHaltsWithoutAllocating := by
  refine fun s x p => ⟨fun h => haltsWith_mkc_of_none h p, fun hx hc => ?_⟩
  obtain ⟨l, hl⟩ := Option.ne_none_iff_exists'.1 hx
  exact haltsWith_mkc_of_error hl (State.allocate_eq_error.2 ⟨hc, rfl⟩) p

/-- With a destination in range and a free index, MKC allocates, moves AW and writes at the destination resolved
anew. -/
theorem exec_mkc_of_free {s : State} {x : RegRef} (hx : s.loc x ≠ none) (hc : s.cnt < 255) (p : Half) :
    ∃ i u m, s.allocate = .ok (i, u) ∧ (u.setAw i).loc x = some m ∧
      exec (.mkc x p) s = .next ((u.setAw i).writeLoc m (tagValue i p)).advance := by
  rcases s.makeClosure_cases x p with ⟨h, -⟩ | ⟨l, -, h, -⟩ | ⟨l, i, u, m, -, ha, hm, e⟩
  · exact absurd h hx
  · obtain ⟨hge, -⟩ := State.allocate_eq_error.1 h
    omega
  · exact ⟨i, u, m, ha, hm, by rw [exec_mkc, e]⟩

theorem State.allocate_of_reference {s u : State} {i : ClosureIx} (ha : s.allocate = .ok (i, u))
    (h : s.params.allocPolicy = .reference) : i = s.permAt s.cnt ∧ u.perm = s.perm ∧ u.pos = s.pos := by
  obtain ⟨-, hi, rfl⟩ := State.allocate_eq_ok.1 ha
  rw [State.elect_of_reference h] at hi ⊢
  exact ⟨hi, rfl, rfl⟩

@[simp] theorem State.rcOf_setAw (s : State) (i k : ClosureIx) : (s.setAw i).rcOf k = s.rcOf k := rfl

@[simp] theorem State.rcOf_writeLoc (s : State) (l : Loc) (v : Word) (k : ClosureIx) :
    (s.writeLoc l v).rcOf k = s.rcOf k := by cases l <;> rfl

@[simp] theorem State.readLoc_setAw (s : State) (i : ClosureIx) (l : Loc) : (s.setAw i).readLoc l = s.readLoc l := by
  cases l <;> rfl

/-- What is left of a state when one word of an allocation's result is written and PC advanced. -/
theorem ChangesAllocatorOnly.afterWrite {s u : State} (h : ChangesAllocatorOnly s u) (i : ClosureIx) (m : Loc)
    (v : Word) :
    let t := ((u.setAw i).writeLoc m v).advance
    SameMemoryBut m s t ∧ t.pc = s.pc + 1 ∧ t.fw = s.fw ∧ t.cw = s.cw ∧ t.gw = s.gw ∧ t.cstk = s.cstk ∧
      t.printLog = s.printLog ∧ SameRun s t := by
  obtain ⟨hfw, hcw, -, hgw⟩ := h.sameWindows
  obtain ⟨htick, hlimit, hstatus, hcode, hparams, hhook, hlog, hrequests⟩ := h.sameRun
  refine ⟨fun n hn => ?_, ?_⟩
  · rw [State.readLoc_advance, State.readLoc_writeLoc_other _ _ hn, State.readLoc_setAw, h.sameMemory n]
  · simp [SameRun, h.read_eq State.pc, hfw, hcw, hgw, h.read_eq State.cstk, h.read_eq State.printLog, htick, hlimit,
      hstatus, hcode, hparams, hhook, hlog, hrequests]

/-- Settles O22: Allocate's inversion for the index and the counts; AW and one word change besides. -/
theorem mkcAllocatesAndTags : Obligations.MkcAllocatesAndTags := by
  intro s x p hok hc hx
  obtain ⟨i, u, m, ha, hm, e⟩ := exec_mkc_of_free hx hc p
  obtain ⟨hne, hfree, hone, hothers, hcnt, -⟩ := State.AllocOk_allocate hok ha
  refine ⟨_, i, m, e, hne, hfree, fun href => ?policy, ?_, fun k hk => ?_, ?_, ?_, ?_, ?_,
    (State.allocate_only ha).afterWrite i m _⟩
  case policy => simpa using State.allocate_of_reference ha href
  · simpa using hone
  · simpa using hothers k hk
  · simpa using hcnt
  · simp
  · simpa using hm
  · rw [State.readLoc_advance, State.readLoc_writeLoc_same, tagValue_eq_ofNat]

/-- Settles O30: AUX is the write of AW and the advance, without a check. -/
theorem auxSetsAuxiliaryWindow : Obligations.AuxSetsAuxiliaryWindow := exec_aux

end Sys2Proof.Machine

/-! ## FRAME, FN, FNRX, RET and PRINT (44_call_return.md R150 to R156; 45_system.md R170) -/

namespace Sys2Proof.Machine

theorem sext16_eq_ofInt (imm : Half) : sext16 imm = BitVec.ofInt 32 imm.toInt := rfl

/-- Settles O31: adding the sign-extended immediate is the wrapped signed sum. -/
theorem frameAddsSignedImmediate : Obligations.FrameAddsSignedImmediate := by
  intro s imm
  rw [exec_frame, BitVec.ofInt_add, BitVec.ofInt_toInt, ← sext16_eq_ofInt]
  rfl

theorem Word.add_setWidth_eq_ofInt (v : Word) (size : Byte) :
    v + size.setWidth 32 = BitVec.ofInt 32 (v.toInt + size.toNat) := by
  rw [BitVec.ofInt_add, BitVec.ofInt_toInt, BitVec.ofInt_natCast, BitVec.ofNat_toNat]

/-- `Call` below the depth limit (R153), in the numbers of the statements. -/
theorem State.call_of_lt {s : State} (h : ∀ d, s.params.callDepthMax = some d → s.cstk.length < d) (entry : Half)
    (clo : ClosureIx) (size : Byte) : s.call entry clo size = { s with
      cstk := ⟨s.pc, s.fw, s.cw⟩ :: s.cstk
      fw := BitVec.ofInt 32 (s.fw.toInt + size.toNat)
      cw := clo
      pc := BitVec.ofNat 17 entry.toNat } := by
  rcases s.call_cases entry clo size with ⟨hd, -⟩ | ⟨-, e⟩
  · rw [State.callDepthReached_eq_false.2 h] at hd
    cases hd
  · rw [e, Word.add_setWidth_eq_ofInt, BitVec.ofNat_toNat]

/-- `Call` at the depth limit (R153). -/
theorem State.call_of_le {s : State} {d : Nat} (hd : s.params.callDepthMax = some d) (hle : d ≤ s.cstk.length)
    (entry : Half) (clo : ClosureIx) (size : Byte) : s.call entry clo size = s.raise .callDepthExceeded := by
  rcases s.call_cases entry clo size with ⟨-, e⟩ | ⟨hlt, -⟩
  · exact e
  · exact absurd (State.callDepthReached_eq_false.1 hlt d hd) (Nat.not_lt_of_le hle)

/-- Settles O32: FN is `Call` with the null closure. -/
theorem fnCallsWithNullClosure : Obligations.FnCallsWithNullClosure := by
  refine fun s size entry => ⟨fun h => ?below, fun d hd hle => ?limit⟩
  case below => rw [exec_fn, State.call_of_lt h]
  case limit => exact haltsWith_of_exec (by rw [exec_fn, State.call_of_le hd hle])

theorem descEntry_toNat (d : Word) : (descEntry d).toNat = d.toNat % 2 ^ 16 := by
  rw [descEntry, BitVec.extractLsb'_toNat, Nat.shiftRight_zero]

theorem extractLsb'_eq_ofNat_div (d : Word) (start len : Nat) :
    d.extractLsb' start len = BitVec.ofNat len (d.toNat / 2 ^ start) := by
  rw [← Nat.shiftRight_eq_div_pow]
  rfl

theorem descClosure_listed (d : Word) : descClosure .listed d = BitVec.ofNat 8 (d.toNat / 2 ^ 16) :=
  extractLsb'_eq_ofNat_div d 16 8

theorem descClosure_tagged (d : Word) : descClosure .tagged d = BitVec.ofNat 8 (d.toNat / 2 ^ 24) :=
  extractLsb'_eq_ofNat_div d 24 8

theorem exec_fnrx_of_some {s : State} {y : RegRef} {l : Loc} (hy : s.loc y = some l) (size : Byte) :
    exec (.fnrx size y) s =
      .next (s.call (descEntry (s.readLoc l)) (descClosure s.params.descLayout (s.readLoc l)) size) := by
  rw [exec_fnrx, State.withLoc_some hy]

/-- Settles O33: once its descriptor is read FNRX is `Call`, with the entry and the closure the layout places in it. -/
theorem fnrxCallsThroughDescriptor : Obligations.FnrxCallsThroughDescriptor := by
  refine fun s size y => ⟨fun hy => ?fault, fun l hy => ⟨fun h => ?below, fun d hd hle => ?limit⟩⟩
  case fault => exact haltsWith_of_exec (by rw [exec_fnrx, State.withLoc_none hy])
  case below =>
    rw [exec_fnrx_of_some hy, State.call_of_lt h, descEntry_toNat]
    cases s.params.descLayout with
    | listed => rw [descClosure_listed]
    | tagged => rw [descClosure_tagged]
  case limit => exact haltsWith_of_exec (by rw [exec_fnrx_of_some hy, State.call_of_le hd hle])

/-- Settles O34: RET pops the newest record if there is one, and the last one ends the run. -/
theorem retRestoresSavedRecord : Obligations.RetRestoresSavedRecord :=
  fun _ => ⟨fun _ _ _ h => exec_ret_cons h, fun _ h => exec_ret_cons h, exec_ret_nil⟩

/-- Settles O37: what `Loc` answers decides between the print and the fault. -/
theorem printEmitsWordUnchanged : Obligations.PrintEmitsWordUnchanged := by
  refine fun s x => ⟨fun l hx => ?resolved, fun hx => ?fault⟩
  case resolved =>
    rw [exec_print, State.actOnReg_of_ok hx rfl]
    rfl
  case fault => exact haltsWith_of_exec (by rw [exec_print, State.actOnReg_of_none hx])

/-! ## Which registers an instruction can change (10_state.md R15 to R18, R22 to R24, R28) -/

/-- The windows, the allocator, PRINTLOG and CSTK stand. -/
def SameRegisters (s t : State) : Prop :=
  SameWindows s t ∧ SameAllocator s t ∧ t.printLog = s.printLog ∧ t.cstk = s.cstk

/-- The registers each instruction leaves as they were, by instruction. -/
inductive RegisterEffect (s t : State) : Instr → Prop where
  | same (i : Instr) (h : SameRegisters s t) : RegisterEffect s t i
  | print (x : RegRef) (hw : SameWindows s t) (ha : SameAllocator s t) (hc : t.cstk = s.cstk) :
      RegisterEffect s t (.print x)
  | frame (imm : Half) (hcw : t.cw = s.cw) (haw : t.aw = s.aw) (ha : SameAllocator s t) (hp : t.printLog = s.printLog)
      (hc : t.cstk = s.cstk) : RegisterEffect s t (.frame imm)
  | mkc (x : RegRef) (p : Half) (hfw : t.fw = s.fw) (hcw : t.cw = s.cw) (hp : t.printLog = s.printLog)
      (hc : t.cstk = s.cstk) : RegisterEffect s t (.mkc x p)
  | retain (x : RegRef) (hw : SameWindows s t) (hp : t.printLog = s.printLog) (hc : t.cstk = s.cstk) :
      RegisterEffect s t (.retain x)
  | release (x : RegRef) (hw : SameWindows s t) (hp : t.printLog = s.printLog) (hc : t.cstk = s.cstk) :
      RegisterEffect s t (.release x)
  | aux (slot : Byte) (hfw : t.fw = s.fw) (hcw : t.cw = s.cw) (ha : SameAllocator s t) (hp : t.printLog = s.printLog)
      (hc : t.cstk = s.cstk) : RegisterEffect s t (.aux slot)
  | fn (size : Byte) (entry : Half) (haw : t.aw = s.aw) (ha : SameAllocator s t) (hp : t.printLog = s.printLog) :
      RegisterEffect s t (.fn size entry)
  | fnrx (size : Byte) (y : RegRef) (haw : t.aw = s.aw) (ha : SameAllocator s t) (hp : t.printLog = s.printLog) :
      RegisterEffect s t (.fnrx size y)
  | ret (haw : t.aw = s.aw) (ha : SameAllocator s t) (hp : t.printLog = s.printLog) : RegisterEffect s t .ret

theorem State.sameRegisters_raise (s : State) (e : Halt) : SameRegisters s (s.raise e) := by
  simp [SameRegisters, SameWindows, SameAllocator]

theorem State.sameRegisters_store (s : State) (l : Loc) (v : Word) : SameRegisters s (s.writeLoc l v).advance := by
  simp [SameRegisters, SameWindows, SameAllocator]

theorem State.updateReg_sameRegisters (s : State) (x : RegRef) (f : Word → Word) :
    SameRegisters s (s.updateReg x f) := by
  rcases s.updateReg_cases x f with ⟨-, e⟩ | ⟨lx, -, e⟩ <;> rw [e]
  · exact s.sameRegisters_raise _
  · exact s.sameRegisters_store _ _

theorem State.copyReg_sameRegisters (s : State) (x y : RegRef) : SameRegisters s (s.copyReg x y) := by
  rcases s.copyReg_cases x y with ⟨-, e⟩ | ⟨lx, ly, -, -, e⟩ <;> rw [e]
  · exact s.sameRegisters_raise _
  · exact s.sameRegisters_store _ _

theorem State.binop_sameRegisters (s : State) (op : Word → Word → Except Halt Word) (x y z : RegRef) :
    SameRegisters s (s.binop op x y z) := by
  rcases s.binop_cases op x y z with ⟨-, e⟩ | ⟨lx, ly, lz, -, -, -, ⟨h, -, e⟩ | ⟨v, -, e⟩⟩ <;> rw [e]
  · exact s.sameRegisters_raise _
  · exact s.sameRegisters_raise _
  · exact s.sameRegisters_store _ _

theorem State.loadStack_sameRegisters (s : State) (x y : RegRef) (d : Byte) : SameRegisters s (s.loadStack x y d) := by
  rcases s.loadStack_cases x y d with e | ⟨lx, ly, a, -, -, -, e⟩ <;> rw [e]
  · exact s.sameRegisters_raise _
  · exact s.sameRegisters_store _ _

theorem State.storeStack_sameRegisters (s : State) (x : RegRef) (d : Byte) (z : RegRef) :
    SameRegisters s (s.storeStack x d z) := by
  rcases s.storeStack_cases x d z with e | ⟨lx, lz, a, -, -, -, e⟩ <;> rw [e]
  · exact s.sameRegisters_raise _
  · exact s.sameRegisters_store _ _

/-- The acting form: the halt it takes, or the action's state with PC advanced. -/
theorem State.actOnReg_halts_or_acts (s : State) (x : RegRef) (act : Word → Except Halt State) :
    SameRegisters s (s.actOnReg x act) ∨ ∃ v t, act v = .ok t ∧ s.actOnReg x act = t.advance := by
  rcases s.actOnReg_cases x act with ⟨-, e⟩ | ⟨lx, -, ⟨h, -, e⟩ | ⟨t, ht, e⟩⟩
  · exact .inl (e ▸ s.sameRegisters_raise _)
  · exact .inl (e ▸ s.sameRegisters_raise _)
  · exact .inr ⟨_, t, ht, e⟩

theorem State.call_printLog (s : State) (entry : Half) (clo : ClosureIx) (size : Byte) :
    (s.call entry clo size).printLog = s.printLog := by
  rcases s.call_cases entry clo size with ⟨-, e⟩ | ⟨-, e⟩ <;> rw [e]
  rfl

/-- Inversion of `exec` for the registers. -/
theorem exec_registerEffect {i : Instr} {s t : State} (h : exec i s = .next t) : RegisterEffect s t i := by
  cases i with
  | li | lu | inc => cases h; exact .same _ (s.updateReg_sameRegisters _ _)
  | mov x y => cases h; exact .same _ (s.copyReg_sameRegisters x y)
  | ld x y d => cases h; exact .same _ (s.loadStack_sameRegisters x y d)
  | st x d z => cases h; exact .same _ (s.storeStack_sameRegisters x d z)
  | add | sub | mul | div | mod | nand | shl | shr => cases h; exact .same _ (s.binop_sameRegisters _ _ _ _)
  | brk => cases h; exact .same _ (by simp [SameRegisters, SameWindows, SameAllocator])
  | print x =>
    cases h
    rcases s.actOnReg_halts_or_acts x (fun v => .ok (s.printWord v)) with hsame | ⟨v, t, ht, e⟩
    · exact .same _ hsame
    · rw [e]
      cases ht
      exact .print x ⟨rfl, rfl, rfl, rfl⟩ ⟨rfl, rfl, rfl, rfl⟩ rfl
  | frame imm => cases h; exact .frame imm rfl rfl ⟨rfl, rfl, rfl, rfl⟩ rfl rfl
  | mkc x p =>
    cases h
    rcases s.makeClosure_cases x p with ⟨-, e⟩ | ⟨l, -, -, e⟩ | ⟨l, i, u, m, -, ha, -, e⟩ <;> rw [e]
    · exact .same _ (s.sameRegisters_raise _)
    · exact .same _ (s.sameRegisters_raise _)
    · obtain ⟨-, -, hfw, hcw, -, hc, hp, -⟩ := (State.allocate_only ha).afterWrite i m (tagValue i p)
      exact .mkc x p hfw hcw hp hc
  | retain x =>
    cases h
    rcases s.actOnReg_halts_or_acts x (fun v => s.retain (closureIndex v)) with hsame | ⟨v, t, ht, e⟩
    · exact .same _ hsame
    · rw [e]
      have honly := State.retain_only ht
      exact .retain x honly.sameWindows (honly.read_eq State.printLog) (honly.read_eq State.cstk)
  | release x =>
    cases h
    rcases s.actOnReg_halts_or_acts x (fun v => s.release (closureIndex v)) with hsame | ⟨v, t, ht, e⟩
    · exact .same _ hsame
    · rw [e]
      have honly := State.release_only ht
      exact .release x honly.sameWindows (honly.read_eq State.printLog) (honly.read_eq State.cstk)
  | aux slot => cases h; exact .aux slot rfl rfl ⟨rfl, rfl, rfl, rfl⟩ rfl rfl
  | fn n entry =>
    obtain ⟨⟨haw, -, -, -, halloc⟩, -⟩ := exec_fn_saves h
    cases h
    exact .fn n entry haw halloc (s.call_printLog _ _ _)
  | fnrx n y =>
    obtain ⟨⟨haw, -, -, -, halloc⟩, -⟩ := exec_fnrx_saves h
    cases h
    refine .fnrx n y haw halloc ?_
    rcases s.withLoc_cases y (fun ly => s.call (descEntry (s.readLoc ly))
      (descClosure s.params.descLayout (s.readLoc ly)) n) with ⟨-, e⟩ | ⟨ly, -, e⟩ <;> rw [e]
    · rfl
    · exact s.call_printLog _ _ _
  | ret =>
    obtain ⟨⟨haw, -, -, -, halloc⟩, -⟩ := exec_ret_restores h
    obtain ⟨f, rest, -, rfl⟩ := exec_ret_pops h
    exact .ret haw halloc (by simp)

section ByRegister

variable {s t : State} {i : Instr} (h : RegisterEffect s t i)
include h

theorem RegisterEffect.fw_cases :
    t.fw = s.fw ∨ (∃ imm, i = .frame imm) ∨ (∃ n e, i = .fn n e) ∨ (∃ n y, i = .fnrx n y) ∨ i = .ret := by
  cases h with
  | same i hsame =>
    obtain ⟨⟨hfw, -⟩, -⟩ := hsame
    exact .inl hfw
  | print x hw | retain x hw | release x hw => exact .inl hw.1
  | mkc x p hfw | aux slot hfw => exact .inl hfw
  | frame | fn | fnrx | ret => exact .inr (by simp)

theorem RegisterEffect.cw_cases :
    t.cw = s.cw ∨ (∃ n e, i = .fn n e) ∨ (∃ n y, i = .fnrx n y) ∨ i = .ret := by
  cases h with
  | same i hsame =>
    obtain ⟨⟨-, hcw, -⟩, -⟩ := hsame
    exact .inl hcw
  | print x hw | retain x hw | release x hw =>
    obtain ⟨-, hcw, -⟩ := hw
    exact .inl hcw
  | frame imm hcw | mkc x p _ hcw | aux slot _ hcw => exact .inl hcw
  | fn | fnrx | ret => exact .inr (by simp)

theorem RegisterEffect.aw_cases : t.aw = s.aw ∨ (∃ x p, i = .mkc x p) ∨ ∃ k, i = .aux k := by
  cases h with
  | same i hsame =>
    obtain ⟨⟨-, -, haw, -⟩, -⟩ := hsame
    exact .inl haw
  | print x hw | retain x hw | release x hw =>
    obtain ⟨-, -, haw, -⟩ := hw
    exact .inl haw
  | frame imm _ haw | fn n e haw | fnrx n y haw | ret haw => exact .inl haw
  | mkc | aux => exact .inr (by simp)

theorem RegisterEffect.allocator_cases :
    SameAllocator s t ∨ (∃ x p, i = .mkc x p) ∨ (∃ x, i = .retain x) ∨ ∃ x, i = .release x := by
  cases h with
  | same i hsame =>
    obtain ⟨-, ha, -⟩ := hsame
    exact .inl ha
  | print _ _ ha | frame _ _ _ ha | aux _ _ _ ha | fn _ _ _ ha | fnrx _ _ _ ha | ret _ ha => exact .inl ha
  | mkc | retain | release => exact .inr (by simp)

theorem RegisterEffect.printLog_cases : t.printLog = s.printLog ∨ ∃ x, i = .print x := by
  cases h with
  | same i hsame =>
    obtain ⟨-, -, hp, -⟩ := hsame
    exact .inl hp
  | frame _ _ _ _ hp | mkc _ _ _ _ hp | retain _ _ hp | release _ _ hp | aux _ _ _ _ hp => exact .inl hp
  | fn _ _ _ _ hp | fnrx _ _ _ _ hp | ret _ _ hp => exact .inl hp
  | print x => exact .inr ⟨x, rfl⟩

theorem RegisterEffect.cstk_cases :
    t.cstk = s.cstk ∨ (∃ n e, i = .fn n e) ∨ (∃ n y, i = .fnrx n y) ∨ i = .ret := by
  cases h with
  | same i hsame =>
    obtain ⟨-, -, -, hc⟩ := hsame
    exact .inl hc
  | print _ _ _ hc | frame _ _ _ _ _ hc | mkc _ _ _ _ _ hc | retain _ _ _ hc | release _ _ _ hc => exact .inl hc
  | aux _ _ _ _ _ hc => exact .inl hc
  | fn | fnrx | ret => exact .inr (by simp)

end ByRegister

/-- Settles O47: the instructions that can move each window, and what no instruction changes. -/
theorem windowsMoveOnlyByNamedInstructions : Obligations.WindowsMoveOnlyByNamedInstructions := by
  intro i s t h
  obtain ⟨⟨hgw, hlimit, hparams, hrequests⟩, hhook⟩ := (exec_effect h).sameConfig
  have hregs := exec_registerEffect h
  exact ⟨hregs.fw_cases.resolve_left, hregs.cw_cases.resolve_left, hregs.aw_cases.resolve_left, hgw, hlimit, hhook,
    hparams, hrequests⟩

/-- Settles O48: the instructions that can change the allocator, PRINTLOG and CSTK. -/
theorem allocatorAndLogsChangeOnlyByNamedInstructions : Obligations.AllocatorAndLogsChangeOnlyByNamedInstructions := by
  intro i s t h
  have hregs := exec_registerEffect h
  exact ⟨hregs.allocator_cases.resolve_left, hregs.printLog_cases.resolve_left, hregs.cstk_cases.resolve_left⟩

/-! ## The Loader (10_state.md R25, R30; 70_reset_and_hazards.md R210, R212) -/

/-- The first call of an accepted program below the depth limit: the Loader's record of zeros, and the entry. -/
theorem State.runRequest_of_accepted {s : State} {q : RunRequest} (hw : programWellFormed q.program = true)
    (hd : s.params.callDepthMax ≠ some 0) : s.runRequest q = { s.loadImage q with
      cstk := [⟨0, 0, 0⟩]
      pc := (trailerEntry q.program).setWidth 17 } := by
  rw [s.runRequest_of_wellFormed hw]
  rcases (s.loadImage q).call_cases (trailerEntry q.program) 0 0 with ⟨h, -⟩ | ⟨-, e⟩
  · rw [State.callDepthReached_loadImage hd] at h
    cases h
  · rw [e]
    rfl

/-- Settles O50: the fields are those of `loadImage`, but for CSTK and PC, which the first call sets. -/
theorem loaderEstablishesResetTable : Obligations.LoaderEstablishesResetTable := by
  intro s q rest hs hq hmin hmax hd
  have hrun := State.runRequest_of_accepted (s := { s with requests := rest }) (programWellFormed_iff.2 ⟨hmin, hmax⟩) hd
  have hgw : (BitVec.ofNat 16 (stackWords - q.program.length)).toNat = 65536 - q.program.length := by
    rw [BitVec.toNat_ofNat, stackWords]
    omega
  refine ⟨_, step_request hs hq, ?_⟩
  rw [hrun]
  refine ⟨rfl, rfl, rfl, hgw, rfl, rfl, rfl, fun i => ?counts, rfl, fun j hj => identityPerm_getD hj, fun i hi => ?pos,
    rfl, rfl, rfl⟩
  case counts => exact Vector.getElem_replicate _
  case pos => exact identityPos_getD (by omega)

/-- The words a program's image leaves: the block written at the tail of STK, all else as it was. -/
theorem State.readStk_loadImage (s : State) (q : RunRequest) (a : Nat) : (s.loadImage q).readStk a =
    if stackWords - q.program.length ≤ a ∧ a < stackWords - q.program.length + q.program.length then
      (q.program[a - (stackWords - q.program.length)]?).getD (Config.powerUpStk a)
    else s.readStk a := by
  show (Memory.lookup (Memory.writeBlock _ _ _) a).getD _ = _
  rw [Memory.lookup_writeBlock]
  split_ifs <;> rfl

theorem State.sameMemory_runRequest (s : State) {q : RunRequest} (hw : programWellFormed q.program = true) :
    SameMemory (s.loadImage q) (s.runRequest q) := by
  obtain ⟨-, -, -, hmem, -⟩ := (s.loadImage q).keptByCalls_call (trailerEntry q.program) 0 0
  rw [s.runRequest_of_wellFormed hw]
  exact hmem

/-- Settles O51: the first call writes no memory, so the words are those of the Loader's block write. -/
theorem loaderWritesOnlyTheImage : Obligations.LoaderWritesOnlyTheImage := by
  intro s q rest hs hq
  refine ⟨_, step_request hs hq, fun hmin hmax => ?accepted, fun hp => ?rejected⟩
  case accepted =>
    have hmem := State.sameMemory_runRequest { s with requests := rest } (programWellFormed_iff.2 ⟨hmin, hmax⟩)
    refine ⟨fun k v hv => ?image, fun a ha => ?below, fun slot off => hmem _⟩
    case image =>
      obtain ⟨hk, -⟩ := List.getElem?_eq_some_iff.1 hv
      rw [hmem, State.readLoc_stk, State.readStk_loadImage, stackWords, if_pos (by omega), Nat.add_sub_cancel_left, hv]
      rfl
    case below =>
      rw [hmem, State.readLoc_stk, State.readStk_loadImage, stackWords, if_neg (by omega)]
      rfl
  case rejected =>
    rw [State.runRequest_of_rejected _ hp]
    exact State.readLoc_congr rfl rfl

end Sys2Proof.Machine
